-- ==== Sys2Proof/Word.lean ====
section
/-! DEFINITION. The word types of the core (spec 00_scope.md R13). -/

namespace Sys2Proof

/-- A command or response word (R13). -/
abbrev Word64 := BitVec 64

/-- A configuration register's contents (R13). -/
abbrev Word32 := BitVec 32

/-- A binary32 pattern, read by 00_scope.md R20. -/
abbrev F32 := BitVec 32

/-- One byte of a byte transport (20_memory.md R203). -/
abbrev Byte := BitVec 8

/-- The range of a Sample, an audio amplitude that the pseudocode handles as a mathematical integer
(00_scope.md R17, R32). -/
def sampleInRange (i : Int) : Bool := decide (-32768 ≤ i) && decide (i ≤ 32767)

end Sys2Proof
end

