-- ==== Sys2Proof/Syntax.lean ====
section
/-! DEFINITION. The eight commands (spec 30_encoding.md R330, R340). -/

namespace Sys2Proof

/-- One command, with its operands as the spec's pseudocode names them: an index or selector is the
bits of its field (R306), a Sample is an integer (R307). -/
inductive Instr where
  /-- NOP (R400). -/
  | nop
  /-- CFG_RD of the register at index `idx` (R410). -/
  | cfgRd (idx : BitVec 16)
  /-- CFG_WR of `value` to the register at index `idx` (R420). -/
  | cfgWr (idx : BitVec 16) (value : Word32)
  /-- START (R430). -/
  | start
  /-- STOP (R440). -/
  | stop
  /-- PROC of one noise-source Sample and one feedback Sample (R530). -/
  | proc (noise fb : Int)
  /-- PROC_NOIN (R540). -/
  | procNoin
  /-- RD_STATE of element `idx` of the state selected by `sel` (R850). -/
  | rdState (sel : BitVec 4) (idx : BitVec 16)
  deriving DecidableEq, Repr

end Sys2Proof
end

