-- ==== Sys2Proof/WellFormed.lean ====
section
/-! DEFINITION. Which commands have a word. An index, a selector and a CFG_WR value are bits of
their field's width and cannot be out of range; PROC's two Samples are integers and can be: "An
operand outside its range is an assembly error, not a word" (30_encoding.md R340). -/

namespace Sys2Proof

/-- The command's operands lie in the ranges of 30_encoding.md R340. -/
def Instr.wellFormed : Instr → Bool
  | .nop => true
  | .cfgRd _ => true
  | .cfgWr _ _ => true
  | .start => true
  | .stop => true
  | .proc noise fb => sampleInRange noise && sampleInRange fb
  | .procNoin => true
  | .rdState _ _ => true

end Sys2Proof
end

