-- ==== Sys2Proof/Decode.lean ====
section
/-! DEFINITION. Command words: the field layout, the decoder, the encoder and the opcode table
(spec 30_encoding.md sections 2, 4, 5; 20_memory.md R203). -/

namespace Sys2Proof

/-- The fields of a command word, 30_encoding.md R306. -/
structure Fields where
  op  : BitVec 4
  sel : BitVec 4
  rsv : BitVec 8
  idx : BitVec 16
  a   : BitVec 16
  b   : BitVec 16
  deriving DecidableEq, Repr

/-- The fields of `w`: OP[63:60], SEL[59:56], RSV[55:48], IDX[47:32], A[31:16], B[15:0] (R306). -/
def fieldsOf (w : Word64) : Fields where
  op  := w.extractLsb' 60 4
  sel := w.extractLsb' 56 4
  rsv := w.extractLsb' 48 8
  idx := w.extractLsb' 32 16
  a   := w.extractLsb' 16 16
  b   := w.extractLsb' 0 16

/-- The word with the given fields (R306). -/
def wordOf (f : Fields) : Word64 :=
  f.op ++ (f.sel ++ (f.rsv ++ (f.idx ++ (f.a ++ f.b))))

/-- The assigned opcodes of 30_encoding.md R330. -/
inductive Opcode where
  | nop | cfgRd | cfgWr | start | stop | proc | procNoin | rdState
  deriving DecidableEq, Repr

/-- The OP field of each opcode (R330). -/
def opcodeBits : Opcode → BitVec 4
  | .nop      => 0x0
  | .cfgRd    => 0x1
  | .cfgWr    => 0x2
  | .start    => 0x3
  | .stop     => 0x4
  | .proc     => 0x5
  | .procNoin => 0x6
  | .rdState  => 0x7

/-- The opcode an OP field selects; 0x8 to 0xF are reserved (R330). -/
def opcodeOf (op : BitVec 4) : Option Opcode :=
  if op = 0x0 then some .nop
  else if op = 0x1 then some .cfgRd
  else if op = 0x2 then some .cfgWr
  else if op = 0x3 then some .start
  else if op = 0x4 then some .stop
  else if op = 0x5 then some .proc
  else if op = 0x6 then some .procNoin
  else if op = 0x7 then some .rdState
  else none

/-- Every field the opcode does not use is 0 (30_encoding.md R308). -/
def unusedZero (o : Opcode) (f : Fields) : Bool :=
  match o with
  | .nop | .start | .stop | .procNoin =>
    f.sel == 0 && f.rsv == 0 && f.idx == 0 && f.a == 0 && f.b == 0
  | .cfgRd   => f.sel == 0 && f.rsv == 0 && f.a == 0 && f.b == 0
  | .cfgWr   => f.sel == 0 && f.rsv == 0
  | .proc    => f.sel == 0 && f.rsv == 0 && f.idx == 0
  | .rdState => f.rsv == 0 && f.a == 0 && f.b == 0

/-- `sext_16` (00_scope.md R17): a 16-bit field as two's complement. -/
def sext16 (v : BitVec 16) : Int := v.toInt

/-- `bits16` (00_scope.md R17): the two's-complement pattern of an integer in the Sample range. -/
def bits16 (i : Int) : BitVec 16 := BitVec.ofInt 16 i

/-- Operand assembly, 30_encoding.md R307. -/
def operandsOf (o : Opcode) (f : Fields) : Instr :=
  match o with
  | .nop      => .nop
  | .cfgRd    => .cfgRd f.idx
  | .cfgWr    => .cfgWr f.idx (f.a ++ f.b)
  | .start    => .start
  | .stop     => .stop
  | .proc     => .proc (sext16 f.a) (sext16 f.b)
  | .procNoin => .procNoin
  | .rdState  => .rdState f.sel f.idx

/-- Why a word is illegal (30_encoding.md R331). Both are answered with `STATUS = ILLEGAL`. -/
inductive Illegal where
  /-- OP is 0x8 to 0xF. -/
  | reservedOpcode
  /-- A must-be-0 field of the opcode holds a nonzero bit. -/
  | nonzeroField
  deriving DecidableEq, Repr

/-- The command that a word's fields spell, or why they spell none (R331). -/
def decodeFields (f : Fields) : Except Illegal Instr :=
  match opcodeOf f.op with
  | none   => .error .reservedOpcode
  | some o => if unusedZero o f then .ok (operandsOf o f) else .error .nonzeroField

/-- The decoder, total on any 64-bit word (30_encoding.md R331). -/
def decode (w : Word64) : Except Illegal Instr := decodeFields (fieldsOf w)

/-- The word a byte transport carries as these eight bytes, byte k as bits [8k+7:8k]
(20_memory.md R203). -/
def wordOfBytes (b0 b1 b2 b3 b4 b5 b6 b7 : Byte) : Word64 :=
  b7 ++ (b6 ++ (b5 ++ (b4 ++ (b3 ++ (b2 ++ (b1 ++ b0))))))

/-- Byte k of a word on a byte transport (20_memory.md R203). -/
def byteOfWord (w : Word64) (k : Nat) : Byte := w.extractLsb' (8 * k) 8

/-- The bytes of a word in transport order (20_memory.md R203). -/
def bytesOfWord (w : Word64) : List Byte := (List.range 8).map (byteOfWord w)

/-- The first word on a byte transport and the bytes after it; none while fewer than eight bytes have
come. -/
def takeWord : List Byte → Option (Word64 × List Byte)
  | b0 :: b1 :: b2 :: b3 :: b4 :: b5 :: b6 :: b7 :: rest =>
    some (wordOfBytes b0 b1 b2 b3 b4 b5 b6 b7, rest)
  | _ => none

/-- The fields of a command's word (30_encoding.md R341). -/
def fieldsOfInstr : Instr → Fields
  | .nop           => ⟨0x0, 0, 0, 0, 0, 0⟩
  | .cfgRd r       => ⟨0x1, 0, 0, r, 0, 0⟩
  | .cfgWr r v     => ⟨0x2, 0, 0, r, v.extractLsb' 16 16, v.extractLsb' 0 16⟩
  | .start         => ⟨0x3, 0, 0, 0, 0, 0⟩
  | .stop          => ⟨0x4, 0, 0, 0, 0, 0⟩
  | .proc n f      => ⟨0x5, 0, 0, 0, bits16 n, bits16 f⟩
  | .procNoin      => ⟨0x6, 0, 0, 0, 0, 0⟩
  | .rdState s i   => ⟨0x7, s, 0, i, 0, 0⟩

/-- The encoder (30_encoding.md R341). -/
def encode (i : Instr) : Word64 := wordOf (fieldsOfInstr i)

/-- One row of 30_encoding.md R330's second table: a word is the command when
`cmd AND mask = match`. -/
structure OpcodeRow where
  opcode  : Opcode
  mask    : Word64
  pattern : Word64
  deriving DecidableEq, Repr

/-- The mask and match table of 30_encoding.md R330. -/
def opcodeTable : List OpcodeRow :=
  [ ⟨.nop,      0xFFFFFFFFFFFFFFFF, 0x0000000000000000⟩,
    ⟨.cfgRd,    0xFFFF0000FFFFFFFF, 0x1000000000000000⟩,
    ⟨.cfgWr,    0xFFFF000000000000, 0x2000000000000000⟩,
    ⟨.start,    0xFFFFFFFFFFFFFFFF, 0x3000000000000000⟩,
    ⟨.stop,     0xFFFFFFFFFFFFFFFF, 0x4000000000000000⟩,
    ⟨.proc,     0xFFFFFFFF00000000, 0x5000000000000000⟩,
    ⟨.procNoin, 0xFFFFFFFFFFFFFFFF, 0x6000000000000000⟩,
    ⟨.rdState,  0xF0FF0000FFFFFFFF, 0x7000000000000000⟩ ]

/-- The row's pattern matches the word. -/
def rowMatches (r : OpcodeRow) (w : Word64) : Bool := (w &&& r.mask) == r.pattern

/-- The opcode of a command. -/
def opcodeOfInstr : Instr → Opcode
  | .nop         => .nop
  | .cfgRd _     => .cfgRd
  | .cfgWr _ _   => .cfgWr
  | .start       => .start
  | .stop        => .stop
  | .proc _ _    => .proc
  | .procNoin    => .procNoin
  | .rdState _ _ => .rdState

/-- The command the decoder reads from the word whose bits are `w`, for the host's checks; every bit
from `nbits` up is 0. -/
def decodeTableWord (nbits w : Nat) : Option Instr :=
  match decode (BitVec.ofNat 64 (w % 2 ^ nbits)) with
  | .ok i    => some i
  | .error _ => none

end Sys2Proof
end

