-- ==== Sys2Proof/Config.lean ====
section
/-! DEFINITION. What the spec leaves to the implementation as OPEN parameters (00_scope.md R11,
20_memory.md R208). The constants have no body, so no proof can see their values. The third OPEN
parameter, `LAT` (R12), is not a constant here: the readiness bit of each clock edge stands for it
(`Machine.Edge.done`, log entry 4). -/

namespace Sys2Proof

/-- How far NMAX lies above its least legal value, 128: any number that keeps NMAX at most 65535. -/
opaque Config.nmaxAbove : Fin 65408

/-- `NMAX`, the number of tap and delay-line entries the core stores: `128 ≤ NMAX ≤ 65535`
(00_scope.md R11). Only the reset state reads this constant; everything else reads the state's own
`nmax`, so it holds for every NMAX (log entry 3). -/
def Config.nmax : Nat := Config.nmaxAbove.val + 128

/-- `CORE_BASE`, where a platform places the core, if it does (20_memory.md R208). No rule of the
spec and no definition of this model depends on it (log entry 9). -/
opaque Config.coreBase : Nat

end Sys2Proof
end

