-- ==== Sys2Proof/Machine/State.lean ====
section
/-! DEFINITION. The core's state as plain data, and its reset values (spec 10_state.md; 30_encoding.md
section 1; 70_reset_and_hazards.md section 1). -/

namespace Sys2Proof.Machine

/-- `MODE` (10_state.md R102): is a session open? -/
inductive Mode where
  | idle
  | running
  deriving DecidableEq, Repr

/-- The three legal contents of `VARIANT` (10_state.md R114). -/
inductive Variant where
  | pid
  | lms
  | direct
  deriving DecidableEq, Repr

/-- Where the one command that may be in flight stands (30_encoding.md R302, R303). -/
inductive Port where
  /-- No command is in flight: `cmd_ready = 1`, `rsp_valid = 0`. -/
  | ready
  /-- A command was accepted and answered `rsp`, which the core has not offered yet. -/
  | busy (rsp : Word64)
  /-- `rsp_valid = 1` and `rsp_data = rsp`, until the host takes it. -/
  | offering (rsp : Word64)
  deriving DecidableEq, Repr

/-- The input ports at one rising edge of `clk` (30_encoding.md R300), and one bit of the
implementation's own, `done`: at this edge the core is ready to offer the response of the command in
flight. `done` stands for the OPEN latency `LAT` (00_scope.md R12; log entry 4): a wait ends at the
first edge with the bit set, at the latest at the first edge beyond the listed ones (`quietEdge`). -/
structure Edge where
  rst      : Bool
  cmdValid : Bool
  cmdData  : Word64
  rspReady : Bool
  done     : Bool
  deriving DecidableEq, Repr

/-- The whole state of the core, and the edges to come. -/
structure State where
  /-- `NMAX`, read as `CAP[15:0]` (10_state.md R112): fixed, no rule changes it. -/
  nmax     : Nat
  /-- `MODE` (R102), read as `STATUS.RUNNING` (R113). -/
  mode     : Mode
  /-- `VARIANT` (R114). -/
  variant  : Variant
  /-- `GATE` (R115): THRESHOLD [15:0], ADAPT [16]. -/
  gate     : Word32
  /-- `KP` (R116). -/
  kp       : F32
  /-- `KI` (R117). -/
  ki       : F32
  /-- `KD` (R118). -/
  kd       : F32
  /-- `MU` (R119). -/
  mu       : F32
  /-- `LEN` (R120). -/
  len      : Word32
  /-- `GAIN` (R121). -/
  gain     : F32
  /-- `CHAN` (R122). -/
  chan     : Word32
  /-- `SRATE` (R123). -/
  srate    : Word32
  /-- `FRAMES` (R124). -/
  frames   : Word32
  /-- `W[0 .. NMAX-1]`, index 0 first (R130). -/
  w        : List F32
  /-- `D[0 .. NMAX-1]`, index 0 first (R131). -/
  d        : List F32
  /-- `INTEGRAL` (R132). -/
  integral : F32
  /-- `PREVERR` (R133). -/
  prevErr  : F32
  /-- The handshake's phase (30_encoding.md R302, R303). -/
  port     : Port
  /-- THE MODEL'S OWN FIELD: the input ports at the clock edges to come, oldest first; after the last
  one listed the host drives nothing (log entry 2) and no response is held back (log entry 4). -/
  edges    : List Edge
  deriving DecidableEq, Repr

/-- What stops the machine. Nothing does: "A command that cannot be carried out is answered at once
with a nonzero STATUS" (60_exceptions.md R1000), so the type is empty. -/
inductive Fault where
  deriving DecidableEq, Repr

/-- What the model refuses to run. -/
inductive Refusal where
  /-- A command without a meaning in `exec`, by its table mnemonic: raised by no arm of this model,
  since every command has its meaning. Safe: the run stops. -/
  | notModelled (mnemonic : String)
  deriving DecidableEq, Repr

/-- The reset state of a core that stores `n` elements (10_state.md R140 and section 3's table;
70_reset_and_hazards.md R1100). -/
def State.resetOf (n : Nat) : State where
  nmax     := n
  mode     := .idle
  variant  := .lms
  gate     := 0x00000000
  kp       := 0x3E800000
  ki       := 0x00000000
  kd       := 0x3D4CCCCD
  mu       := 0x3A83126F
  len      := 0x00000080
  gain     := 0x3F800000
  chan     := 0x01000202
  srate    := 0x0000BB80
  frames   := 0x00000400
  w        := List.replicate n 0x00000000
  d        := List.replicate n 0x00000000
  integral := 0x00000000
  prevErr  := 0x00000000
  port     := .ready
  edges    := []

/-- The core right after reset, for the implementation's NMAX (70_reset_and_hazards.md R1101). -/
def State.reset : State := State.resetOf Config.nmax

end Sys2Proof.Machine
end

