-- ==== Sys2Proof/Machine/Flags.lean ====
section
/-! DEFINITION. The core has no flags that persist (spec 10_state.md R101); its per-command outputs
are the fields of the response word: STATUS, ACT, OUT and DATA (30_encoding.md section 3,
60_exceptions.md section 1). -/

namespace Sys2Proof.Machine

/-- The status codes of 60_exceptions.md R1001. -/
inductive Status where
  | ok | illegal | notRunning | cfgLocked | alreadyRunning | badIndex | readOnly | badValue
  deriving DecidableEq, Repr

/-- The 8-bit code of a status (R1001). -/
def statusCode : Status → BitVec 8
  | .ok             => 0x00#8
  | .illegal        => 0x01#8
  | .notRunning     => 0x02#8
  | .cfgLocked      => 0x03#8
  | .alreadyRunning => 0x04#8
  | .badIndex       => 0x05#8
  | .readOnly       => 0x06#8
  | .badValue       => 0x07#8

/-- A response before it is packed; an omitted field is 0 (00_scope.md R18). -/
structure Response where
  data   : Word32 := 0#32
  status : Status := .ok
  act    : Bool := false
  out    : BitVec 16 := 0#16
  deriving DecidableEq, Repr

/-- The response word: DATA[63:32], STATUS[31:24], RRSV[23:17] = 0, ACT[16], OUT[15:0]
(30_encoding.md R320). -/
def packResponse (r : Response) : Word64 :=
  r.data ++ (statusCode r.status ++ (0#7 ++ (BitVec.ofBool r.act ++ r.out)))

/-- `rsp[63:32]` (R320). -/
def rspData (w : Word64) : Word32 := w.extractLsb' 32 32

/-- `rsp[31:24]` (R320). -/
def rspStatus (w : Word64) : BitVec 8 := w.extractLsb' 24 8

/-- `rsp[23:17]` (R320). -/
def rspReserved (w : Word64) : BitVec 7 := w.extractLsb' 17 7

/-- `rsp[16]` (R320). -/
def rspAct (w : Word64) : Bool := w.getLsbD 16

/-- `rsp[15:0]` (R320). -/
def rspOut (w : Word64) : BitVec 16 := w.extractLsb' 0 16

end Sys2Proof.Machine
end

