-- ==== Sys2Proof/Machine/Operands.lean ====
section
/-! DEFINITION. What an operand names: a configuration register (spec 20_memory.md R201, 10_state.md
section 3), a filter-state element (20_memory.md R202), and the fields of the registers that rules
read. -/

namespace Sys2Proof.Machine

/-- The configuration registers, by the names of 10_state.md section 3. -/
inductive Reg where
  | id | cap | status | variant | gate | kp | ki | kd | mu | len | gain | chan | srate | frames
  deriving DecidableEq, Repr

/-- The index of a register (10_state.md section 3). -/
def regIndex : Reg → BitVec 16
  | .id      => 0x0000
  | .cap     => 0x0001
  | .status  => 0x0002
  | .variant => 0x0003
  | .gate    => 0x0004
  | .kp      => 0x0005
  | .ki      => 0x0006
  | .kd      => 0x0007
  | .mu      => 0x0008
  | .len     => 0x0009
  | .gain    => 0x000A
  | .chan    => 0x000B
  | .srate   => 0x000C
  | .frames  => 0x000D

/-- Every register. -/
def allRegs : List Reg :=
  [.id, .cap, .status, .variant, .gate, .kp, .ki, .kd, .mu, .len, .gain, .chan, .srate, .frames]

/-- The register an index names; 0x000E to 0xFFFF name none (20_memory.md R201). -/
def regAt (idx : BitVec 16) : Option Reg := allRegs.find? (fun r => regIndex r == idx)

/-- The registers that are never written (10_state.md R110 to R113). -/
def readOnlyReg : Reg → Bool
  | .id | .cap | .status => true
  | _ => false

/-- `GATE.THRESHOLD`, unsigned (10_state.md R115). -/
def gateThreshold (gate : Word32) : Nat := (gate.extractLsb' 0 16).toNat

/-- `GATE.ADAPT` (10_state.md R115). -/
def gateAdapt (gate : Word32) : Bool := gate.getLsbD 16

/-- `CHAN.IN_CH` (10_state.md R122). -/
def chanIn (chan : Word32) : Nat := (chan.extractLsb' 0 8).toNat

/-- `CHAN.OUT_CH` (10_state.md R122). -/
def chanOut (chan : Word32) : Nat := (chan.extractLsb' 8 8).toNat

/-- `CHAN.NOISE_CH` (10_state.md R122). -/
def chanNoise (chan : Word32) : Nat := (chan.extractLsb' 16 8).toNat

/-- `CHAN.FB_CH` (10_state.md R122). -/
def chanFb (chan : Word32) : Nat := (chan.extractLsb' 24 8).toNat

/-- `legal(VARIANT, v)` (40_control.md R420, 10_state.md R114). -/
def legalVariant (v : Word32) : Bool := v.extractLsb' 2 30 == 0 && v.extractLsb' 0 2 != 3

/-- `legal(GATE, v)` (40_control.md R420, 10_state.md R115). -/
def legalGate (v : Word32) : Bool := v.extractLsb' 17 15 == 0

/-- `legal(LEN, v)` on a core of NMAX elements (40_control.md R420, 10_state.md R120). -/
def legalLen (nmax : Nat) (v : Word32) : Bool := decide (1 ≤ v.toNat) && decide (v.toNat ≤ nmax)

/-- `legal(CHAN, v)` (40_control.md R420, 10_state.md R122). -/
def legalChan (v : Word32) : Bool :=
  decide (1 ≤ chanIn v) && decide (1 ≤ chanOut v) && decide (chanNoise v < chanIn v) &&
    decide (chanFb v < chanIn v)

/-- `legal(IDX, value)` of 40_control.md R420; a read-only register has no legal value. -/
def legalValue (nmax : Nat) (r : Reg) (v : Word32) : Bool :=
  match r with
  | .variant => legalVariant v
  | .gate => legalGate v
  | .len => legalLen nmax v
  | .chan => legalChan v
  | .kp | .ki | .kd | .mu | .gain | .srate | .frames => true
  | .id | .cap | .status => false

/-- The contents of `VARIANT` as a word (10_state.md R114). -/
def variantWord : Variant → Word32
  | .pid    => 0
  | .lms    => 1
  | .direct => 2

/-- The variant a legal word selects by its `SEL` field (10_state.md R114). `SEL = 3` is not legal
and is never asked for. -/
def variantOf (v : Word32) : Variant :=
  if v.extractLsb' 0 2 = 0 then .pid
  else if v.extractLsb' 0 2 = 1 then .lms
  else .direct

/-- `N = cfg.LEN` (10_state.md R120). -/
def tapCount (s : State) : Nat := s.len.toNat

/-- The filter-state element that a pair (SEL, IDX) names, if any (20_memory.md R202). -/
def stateElement (s : State) (sel : BitVec 4) (idx : BitVec 16) : Option F32 :=
  if sel = 0 then
    if idx.toNat < tapCount s then some (s.w.getD idx.toNat 0) else none
  else if sel = 1 then
    if idx.toNat < tapCount s then some (s.d.getD idx.toNat 0) else none
  else if sel = 2 then
    if idx = 0 then some s.integral else none
  else if sel = 3 then
    if idx = 0 then some s.prevErr else none
  else none

end Sys2Proof.Machine
end

