-- ==== Sys2Proof/Machine/Ops.lean ====
section
/-! DEFINITION. The operations that meanings share: answering a command, refusing one, and the one
read and the one write of the configuration space. The core has no traps, so there is no exception
entry and no return from one (spec 60_exceptions.md R1000, R1011): `fail` is what a command that
cannot be carried out does. -/

namespace Sys2Proof.Machine

/-- `respond(...)`: the command in flight is answered `r` (00_scope.md R18; 30_encoding.md R302). -/
def respond (r : Response) (s : State) : Host.Outcome State Fault Refusal :=
  .next { s with port := .busy (packResponse r) }

/-- `fail(st)`: the command is answered with the status and nothing else, and no state changes
(00_scope.md R18; 60_exceptions.md R1002). -/
def fail (st : Status) (s : State) : Host.Outcome State Fault Refusal := respond { status := st } s

/-- The value of a configuration register (40_control.md R410; 10_state.md R111 to R124). -/
def readReg (s : State) : Reg → Word32
  | .id      => 0x414E4301
  | .cap     => (0 : BitVec 16) ++ BitVec.ofNat 16 s.nmax
  | .status  => (0 : BitVec 31) ++ BitVec.ofBool (decide (s.mode = .running))
  | .variant => variantWord s.variant
  | .gate    => s.gate
  | .kp      => s.kp
  | .ki      => s.ki
  | .kd      => s.kd
  | .mu      => s.mu
  | .len     => s.len
  | .gain    => s.gain
  | .chan    => s.chan
  | .srate   => s.srate
  | .frames  => s.frames

/-- `register <- v` for a legal `v` (40_control.md R420); a read-only register is never written
(10_state.md R110). -/
def writeReg (r : Reg) (v : Word32) (s : State) : State :=
  match r with
  | .variant => { s with variant := variantOf v }
  | .gate    => { s with gate := v }
  | .kp      => { s with kp := v }
  | .ki      => { s with ki := v }
  | .kd      => { s with kd := v }
  | .mu      => { s with mu := v }
  | .len     => { s with len := v }
  | .gain    => { s with gain := v }
  | .chan    => { s with chan := v }
  | .srate   => { s with srate := v }
  | .frames  => { s with frames := v }
  | .id | .cap | .status => s

/-- Every filter-state element at +0.0 (40_control.md R430). -/
def zeroFilterState (s : State) : State :=
  { s with
    w := List.replicate s.nmax 0x00000000
    d := List.replicate s.nmax 0x00000000
    integral := 0x00000000
    prevErr := 0x00000000 }

/-- The state that a reset edge leaves: every reset value of 10_state.md R140, no command in flight,
`NMAX` as it is (70_reset_and_hazards.md R1100). The edges to come are the host's and stay. -/
def resetCore (s : State) : State := { State.resetOf s.nmax with edges := s.edges }

end Sys2Proof.Machine
end

