-- ==== Sys2Proof/Machine/Control.lean ====
section
/-! DEFINITION. The control and configuration commands (spec 40_control.md). The order of the checks
is 60_exceptions.md R1003. -/

namespace Sys2Proof.Machine

/-- NOP (40_control.md R400). -/
def execNop (s : State) : Host.Outcome State Fault Refusal := respond {} s

/-- CFG_RD (40_control.md R410). -/
def execCfgRd (idx : BitVec 16) (s : State) : Host.Outcome State Fault Refusal :=
  match regAt idx with
  | none   => fail .badIndex s
  | some r => respond { data := readReg s r } s

/-- CFG_WR (40_control.md R420). -/
def execCfgWr (idx : BitVec 16) (value : Word32) (s : State) : Host.Outcome State Fault Refusal :=
  match s.mode with
  | .running => fail .cfgLocked s
  | .idle =>
    match regAt idx with
    | none   => fail .badIndex s
    | some r =>
      if readOnlyReg r then fail .readOnly s
      else if legalValue s.nmax r value then respond {} (writeReg r value s)
      else fail .badValue s

/-- START (40_control.md R430). -/
def execStart (s : State) : Host.Outcome State Fault Refusal :=
  match s.mode with
  | .running => fail .alreadyRunning s
  | .idle    => respond {} { zeroFilterState s with mode := .running }

/-- STOP (40_control.md R440): the filter state is kept. -/
def execStop (s : State) : Host.Outcome State Fault Refusal :=
  match s.mode with
  | .idle    => fail .notRunning s
  | .running => respond {} { s with mode := .idle }

end Sys2Proof.Machine
end

