-- ==== Sys2Proof/Machine/Binary32.lean ====
section
/-! DEFINITION. The binary32 primitives of spec 00_scope.md section 7 (R20 to R28). Finite values are
handled exactly, as integers in units of 2^-149, the least positive binary32 value; the one narrowing
is `rne`. -/

namespace Sys2Proof.Machine

/-- `CANON_NAN` (00_scope.md R21). -/
def canonNaN : F32 := 0x7FC00000#32

/-- The sign bit `s = f[31]` (R20). -/
def f32Sign (x : F32) : Bool := x.msb

/-- The biased exponent `E = f[30:23]` (R20). -/
def f32Exp (x : F32) : Nat := (x.extractLsb' 23 8).toNat

/-- The fraction `T = f[22:0]` (R20). -/
def f32Frac (x : F32) : Nat := (x.extractLsb' 0 23).toNat

/-- NaN: `E = 255` and `T ≠ 0` (R20). -/
def f32IsNaN (x : F32) : Bool := f32Exp x == 255 && f32Frac x != 0

/-- An infinity: `E = 255` and `T = 0` (R20). -/
def f32IsInf (x : F32) : Bool := f32Exp x == 255 && f32Frac x == 0

/-- A zero of either sign (R20). -/
def f32IsZero (x : F32) : Bool := f32Exp x == 0 && f32Frac x == 0

/-- Neither NaN nor an infinity (R20). -/
def f32IsFinite (x : F32) : Bool := f32Exp x != 255

/-- A finite value's magnitude in units of 2^-149: `T` for `E = 0`, else `(2^23 + T) * 2^(E - 1)`,
since `E - 150 = (E - 1) - 149` (R20). -/
def f32Mag (x : F32) : Nat :=
  if f32Exp x = 0 then f32Frac x else (2 ^ 23 + f32Frac x) * 2 ^ (f32Exp x - 1)

/-- A finite value in units of 2^-149: `value x = f32Scaled x / 2^149` (R20). -/
def f32Scaled (x : F32) : Int := if f32Sign x then -(f32Mag x : Int) else (f32Mag x : Int)

/-- `2^128` in units of 2^-149: a rounded value of at least this magnitude is infinite (R24). Claims
are stated with it. -/
def f32Over : Nat := 2 ^ 128 * 2 ^ 149

/-- The pattern with sign bit `neg` and low 31 bits `m`. -/
def f32Pattern (neg : Bool) (m : Nat) : F32 := BitVec.ofBool neg ++ BitVec.ofNat 31 m

/-- A signed infinity, `{s, 0xFF, 23'b0}` (R27). -/
def f32Inf (neg : Bool) : F32 := f32Pattern neg 0x7F800000

/-- A signed zero, `{s, 31'b0}` (R27). -/
def f32Zero (neg : Bool) : F32 := f32Pattern neg 0

/-- `floor(log2 (num / den))` of a positive rational (used by R24). -/
def floorLog2 (num den : Nat) : Int :=
  let l : Int := (num.log2 : Int) - (den.log2 : Int)
  if den * 2 ^ l.toNat ≤ num * 2 ^ (-l).toNat then l else l - 1

/-- The integer nearest `num / den`; of two equally near, the even one (R24). -/
def nearestEven (num den : Nat) : Nat :=
  let n := num / den
  let r := num % den
  if 2 * r < den then n
  else if den < 2 * r then n + 1
  else if n % 2 = 0 then n else n + 1

/-- `RNE(r)` of the nonzero rational `r = num / den`, negative when `neg` (R24). With
`e = max(floor(log2 a), -126)` and `q = 2^(e - 23)`, `n` is `a / q` rounded; `n * q ≥ 2^128` gives
infinity; else the low 31 bits of the pattern with value `n * q` are `(e + 126) * 2^23 + n`, for
subnormal (`e = -126`, `n < 2^23`) and normal results alike. -/
def rne (neg : Bool) (num den : Nat) : F32 :=
  let e := max (floorLog2 num den) (-126)
  let up := (23 - e).toNat
  let down := (e - 23).toNat
  let n := nearestEven (num * 2 ^ up) (den * 2 ^ down)
  if 2 ^ 128 * 2 ^ up ≤ n * 2 ^ down then f32Inf neg
  else f32Pattern neg ((e + 126).toNat * 2 ^ 23 + n)

/-- `RNE` of a nonzero integer numerator over a positive denominator. -/
def rneInt (num : Int) (den : Nat) : F32 := rne (decide (num < 0)) num.natAbs den

/-- `i2f` (R22). -/
def i2f (i : Int) : F32 := if i = 0 then 0x00000000#32 else rneInt i 1

/-- `f32_add` (R25). -/
def f32Add (x y : F32) : F32 :=
  if f32IsNaN x || f32IsNaN y then canonNaN
  else if f32IsInf x && f32IsInf y && (f32Sign x != f32Sign y) then canonNaN
  else if f32IsInf x then x
  else if f32IsInf y then y
  else
    let r := f32Scaled x + f32Scaled y
    if r = 0 then
      if x = 0x80000000#32 ∧ y = 0x80000000#32 then 0x80000000#32 else 0x00000000#32
    else rneInt r (2 ^ 149)

/-- `f32_sub` (R26). -/
def f32Sub (x y : F32) : F32 := f32Add x (y ^^^ 0x80000000#32)

/-- `f32_mul` (R27): the exact product is in units of 2^-149 * 2^-149. -/
def f32Mul (x y : F32) : F32 :=
  if f32IsNaN x || f32IsNaN y then canonNaN
  else
    let s := f32Sign x != f32Sign y
    if (f32IsInf x && f32IsZero y) || (f32IsZero x && f32IsInf y) then canonNaN
    else if f32IsInf x || f32IsInf y then f32Inf s
    else
      let r := f32Scaled x * f32Scaled y
      if r = 0 then f32Zero s else rneInt r (2 ^ 149 * 2 ^ 149)

end Sys2Proof.Machine
end

