-- ==== Sys2Proof/Machine/Direct.lean ====
section
/-! DEFINITION. The direct-gain variant (spec 44_direct.md). -/

namespace Sys2Proof.Machine

/-- `direct_step(noise, fb)` (44_direct.md R810): the correction; the variant has no state (R800). -/
def directStep (noise fb : Int) (s : State) : F32 :=
  f32Mul s.gain (f32Sub (i2f fb) (i2f noise))

end Sys2Proof.Machine
end

