-- ==== Sys2Proof/Machine/Lms.lean ====
section
/-! DEFINITION. The LMS delay-line variant (spec 43_lms.md). The arrays are lists, index 0 first; each
helper works on the first `n` elements and leaves the others alone (43_lms.md R700). -/

namespace Sys2Proof.Machine

/-- Step 1 (43_lms.md R701): the first `n` elements move right by one, `x` enters at the front, the
old element `n-1` is discarded. -/
def shiftIn : Nat → F32 → List F32 → List F32
  | n + 1, x, y :: ys => x :: shiftIn n y ys
  | _, _, ys => ys

/-- Step 2 (43_lms.md R702): `acc`, plus the products of the first `n` pairs, in index order, one
rounding each. -/
def dotFrom : Nat → F32 → List F32 → List F32 → F32
  | n + 1, acc, w :: ws, d :: ds => dotFrom n (f32Add acc (f32Mul w d)) ws ds
  | _, acc, _, _ => acc

/-- Step 4 (43_lms.md R704): each of the first `n` taps gains `g * D[i]`. -/
def updateTaps : Nat → F32 → List F32 → List F32 → List F32
  | n + 1, g, w :: ws, d :: ds => f32Add w (f32Mul g d) :: updateTaps n g ws ds
  | _, _, ws, _ => ws

/-- `lms_step(noise, fb)` (43_lms.md R710): the state after the step and the correction. -/
def lmsStep (noise fb : Int) (s : State) : State × F32 :=
  let n := tapCount s
  let d := shiftIn n (i2f noise) s.d
  let acc := dotFrom n 0x00000000#32 s.w d
  let e := f32Sub (i2f fb) acc
  let g := f32Mul s.mu e
  ({ s with w := updateTaps n g s.w d, d := d }, acc)

end Sys2Proof.Machine
end

