-- ==== Sys2Proof/Machine/Pid.lean ====
section
/-! DEFINITION. The PID feedback-error variant (spec 42_pid.md). -/

namespace Sys2Proof.Machine

/-- `pid_step(noise, fb)` (42_pid.md R610): the state after the step and the correction. -/
def pidStep (noise fb : Int) (s : State) : State × F32 :=
  let e := f32Sub (i2f fb) (i2f noise)
  let p := f32Mul s.kp e
  let t := f32Mul s.ki e
  let integral := f32Add s.integral t
  let dd := f32Sub e s.prevErr
  let d := f32Mul s.kd dd
  let o := f32Add (f32Add p integral) d
  ({ s with integral := integral, prevErr := e }, o)

end Sys2Proof.Machine
end

