-- ==== Sys2Proof/Machine/Proc.lean ====
section
/-! DEFINITION. Sample processing: the noise gate, the output stage, PROC and PROC_NOIN (spec
41_sample.md). -/

namespace Sys2Proof.Machine

/-- `gate(noise)` (41_sample.md R510): `abs(noise) > thr` on exact integers. -/
def gateOpen (s : State) (noise : Int) : Bool := decide (gateThreshold s.gate < noise.natAbs)

/-- Whether the variant runs: the gate is open, or `GATE.ADAPT = 1` (41_sample.md R513). -/
def variantRuns (s : State) (noise : Int) : Bool := gateOpen s noise || gateAdapt s.gate

/-- `clampR(v, lo, hi)` (00_scope.md R30), on values in one common unit. -/
def clampR (v lo hi : Int) : Int := if v < lo then lo else if hi < v then hi else v

/-- `roundHA(num / den)` (00_scope.md R30): `floor(|v| + 1/2)` with the sign of `v`. -/
def roundHA (num : Int) (den : Nat) : Int :=
  num.sign * (((2 * num.natAbs + den) / (2 * den) : Nat) : Int)

/-- `sat16` (00_scope.md R30). -/
def sat16 (i : Int) : Int := if i < -32768 then -32768 else if 32767 < i then 32767 else i

/-- The clamped correction in units of 2^-149 (41_sample.md R520): an infinity goes to its rail. -/
def clampedScaled (c : F32) : Int :=
  if f32IsInf c then (if f32Sign c then -32768 else 32767) * 2 ^ 149
  else clampR (f32Scaled c) (-32768 * 2 ^ 149) (32767 * 2 ^ 149)

/-- `limit(c)`, the output stage (41_sample.md R520 to R524). -/
def limit (c : F32) : Int :=
  if f32IsNaN c then 0 else sat16 (-(roundHA (clampedScaled c) (2 ^ 149)))

/-- One step of the variant that the session selects (41_sample.md R530). -/
def variantStep (noise fb : Int) (s : State) : State × F32 :=
  match s.variant with
  | .pid    => pidStep noise fb s
  | .lms    => lmsStep noise fb s
  | .direct => (s, directStep noise fb s)

/-- The filter part of PROC: the variant's step when it runs, else +0.0 and no change
(41_sample.md R513, R530). -/
def filterSample (noise fb : Int) (s : State) : State × F32 :=
  if variantRuns s noise then variantStep noise fb s else (s, 0x00000000#32)

/-- The output Sample: the limited correction on an active sample, else 0 (41_sample.md R530). -/
def outputSample (act : Bool) (c : F32) : Int := if act then limit c else 0

/-- The response of a PROC that ran in an open session (41_sample.md R530, R531). -/
def procResponse (noise fb : Int) (s : State) : Response :=
  let act := gateOpen s noise
  let c := (filterSample noise fb s).2
  { data := c, act := act, out := bits16 (outputSample act c) }

/-- PROC (41_sample.md R530). -/
def execProc (noise fb : Int) (s : State) : Host.Outcome State Fault Refusal :=
  match s.mode with
  | .idle    => fail .notRunning s
  | .running => respond (procResponse noise fb s) (filterSample noise fb s).1

/-- PROC_NOIN (41_sample.md R540). -/
def execProcNoin (s : State) : Host.Outcome State Fault Refusal :=
  match s.mode with
  | .idle    => fail .notRunning s
  | .running => respond {} s

end Sys2Proof.Machine
end

