-- ==== Sys2Proof/Machine/Readback.lean ====
section
/-! DEFINITION. State readback (spec 45_readback.md). -/

namespace Sys2Proof.Machine

/-- RD_STATE (45_readback.md R850). -/
def execRdState (sel : BitVec 4) (idx : BitVec 16) (s : State) :
    Host.Outcome State Fault Refusal :=
  match s.mode with
  | .idle => fail .notRunning s
  | .running =>
    match stateElement s sel idx with
    | none   => fail .badIndex s
    | some v => respond { data := v } s

end Sys2Proof.Machine
end

