-- ==== Sys2Proof/Machine/Dispatch.lean ====
section
/-! DEFINITION. One arm per command. -/

namespace Sys2Proof.Machine

def exec (i : Instr) (s : State) : Host.Outcome State Fault Refusal :=
  match i with
  | .nop => Sys2Proof.Machine.execNop s
  | .cfgRd idx => Sys2Proof.Machine.execCfgRd idx s
  | .cfgWr idx value => Sys2Proof.Machine.execCfgWr idx value s
  | .start => Sys2Proof.Machine.execStart s
  | .stop => Sys2Proof.Machine.execStop s
  | .proc noise fb => Sys2Proof.Machine.execProc noise fb s
  | .procNoin => Sys2Proof.Machine.execProcNoin s
  | .rdState sel idx => Sys2Proof.Machine.execRdState sel idx s

end Sys2Proof.Machine
end

