-- ==== Sys2Proof/Machine/Ports.lean ====
section
/-! DEFINITION. The ports and the handshake (spec 30_encoding.md R300 to R305; 70_reset_and_hazards.md
R1100), and the transaction-level step (R305) that they carry out. -/

namespace Sys2Proof.Machine

/-- An edge beyond the listed ones: the host drives nothing (log entry 2), and a response still owed is
offered, so that every accepted command gets its response (30_encoding.md R302). That the latency ends
there is DESIGN CHOICE (log entry 4): `LAT` is OPEN, and a longer wait is more listed edges. -/
def quietEdge : Edge := ⟨false, false, 0, false, true⟩

/-- The input ports at the next edge: the first listed, else nothing is driven. -/
def nextEdge (s : State) : Edge := s.edges.headD quietEdge

/-- The state as the next edge finds it: that edge is no longer to come. -/
def atEdge (s : State) : State := { s with edges := s.edges.tail }

/-- `cmd_ready` (30_encoding.md R303). -/
def cmdReady (s : State) : Bool := decide (s.port = .ready)

/-- `rsp_valid`, and `rsp_data` while it is 1 (30_encoding.md R302). -/
def rspOffered (s : State) : Option Word64 :=
  match s.port with
  | .offering r => some r
  | .ready | .busy _ => none

/-- The response of the command in flight, offered or not. -/
def rspPending (s : State) : Option Word64 :=
  match s.port with
  | .ready => none
  | .busy r | .offering r => some r

/-- The command word accepted at the next edge, if one is (30_encoding.md R301). -/
def acceptedWord (s : State) : Option Word64 :=
  let e := nextEdge s
  if !e.rst && e.cmdValid && cmdReady s then some e.cmdData else none

/-- The response word taken at the next edge, if one is (30_encoding.md R301). -/
def takenWord (s : State) : Option Word64 :=
  let e := nextEdge s
  if !e.rst && e.rspReady then rspOffered s else none

/-- The effect of an accepted word: the command it spells, or ILLEGAL with no effect on any state
(30_encoding.md R331, R335). -/
def acceptWord (w : Word64) (s : State) : Host.Outcome State Fault Refusal :=
  match decode w with
  | .ok i    => exec i s
  | .error _ => fail .illegal s

/-- What an edge without reset does (30_encoding.md R301 to R304). -/
def clockEdge (e : Edge) (s : State) : Host.Outcome State Fault Refusal :=
  match s.port with
  | .ready      => if e.cmdValid then acceptWord e.cmdData s else .next s
  | .busy r     => .next (if e.done then { s with port := .offering r } else s)
  | .offering _ => .next (if e.rspReady then { s with port := .ready } else s)

/-- What an edge does; reset comes first (70_reset_and_hazards.md R1100). -/
def edgeStep (e : Edge) (s : State) : Host.Outcome State Fault Refusal :=
  if e.rst then .next (resetCore s) else clockEdge e s

/-- `step(state, cmd) = (state', rsp)` of 30_encoding.md R305, with no clock: the state with no
command in flight again, and the response word. No command gives none
(`Obligations.EveryCommandWordIsAnswered`). -/
def transact (w : Word64) (s : State) : Option (State × Word64) :=
  match acceptWord w s with
  | .next t    => (rspPending t).map fun r => ({ t with port := .ready }, r)
  | .fault _   => none
  | .refused _ => none

/-- A command sequence run through `transact`, with the responses in order (30_encoding.md R305). -/
def transactAll : List Word64 → State → Option (State × List Word64)
  | [], s => some (s, [])
  | w :: ws, s =>
    match transact w s with
    | none => none
    | some (t, r) =>
      match transactAll ws t with
      | none => none
      | some (u, rs) => some (u, r :: rs)

end Sys2Proof.Machine
end

