-- ==== Sys2Proof/Machine/Step.lean ====
section
/-! DEFINITION. One step: the next rising edge of `clk` (spec 30_encoding.md R300). A command's whole
effect is one such step, the edge that accepts it (R305). -/

namespace Sys2Proof.Machine

/-- The next rising edge of `clk`. -/
def step (s : State) : Host.Outcome State Fault Refusal := edgeStep (nextEdge s) (atEdge s)

/-- The edge at which the host offers the command word `w`. -/
def offerEdge (w : Word64) : Edge := ⟨false, true, w, false, false⟩

/-- `s` with the core ready and the word offered at the very next edge (log entry 5). -/
def State.withFetchWord (s : State) (nbits w : Nat) : State :=
  { s with
    port := .ready
    edges := offerEdge (BitVec.ofNat 64 (w % 2 ^ nbits)) :: s.edges }

end Sys2Proof.Machine
end

