-- ==== Sys2Proof/Machine/Frame.lean ====
section
/-! DEFINITION. The frame processor, the host-side loop that turns one `process` call into commands
(spec 46_frame.md). -/

namespace Sys2Proof.Machine

/-- The return value of `process`: "continue" and nothing else (46_frame.md R906). -/
inductive StreamStatus where
  | cont
  deriving DecidableEq, Repr

/-- What one `process` call leaves: the core, the output buffer, the return value. -/
structure ProcessResult where
  state  : State
  out    : List Int
  status : StreamStatus
  deriving DecidableEq, Repr

/-- Sample `c` of frame `i` in a buffer of `channels` channels (46_frame.md R902). -/
def interleaved (channels : Nat) (buf : List Int) (i c : Nat) : Int :=
  buf.getD (i * channels + c) 0

/-- The command of frame `i` (46_frame.md R901, R904): PROC of the two configured channels, or
PROC_NOIN when the input is absent. -/
def frameInstr (chan : Word32) (input : Option (List Int)) (i : Nat) : Instr :=
  match input with
  | none => .procNoin
  | some buf =>
    .proc (interleaved (chanIn chan) buf i (chanNoise chan))
      (interleaved (chanIn chan) buf i (chanFb chan))

/-- The commands of a call of `count` frames, in index order (46_frame.md R901; the pseudo-command
FRAME of 30_encoding.md R342). -/
def frameInstrs (chan : Word32) (count : Nat) (input : Option (List Int)) : List Instr :=
  (List.range count).map (frameInstr chan input)

/-- The input is absent, or a buffer of `count * IN_CH` Samples (46_frame.md R900). -/
def inputOk (chan : Word32) (count : Nat) (input : Option (List Int)) : Bool :=
  match input with
  | none => true
  | some buf => buf.length == count * chanIn chan && buf.all sampleInRange

/-- The Sample that a response gives the frame: its OUT, or silence when it is not OK
(46_frame.md R901, R905). -/
def frameSample (rsp : Word64) : Int :=
  if rspStatus rsp = statusCode .ok then sext16 (rspOut rsp) else 0

/-- Issue the commands one after another, each after the response of the one before (46_frame.md
R901); one Sample for each. -/
def issueAll : List Instr → State → Option (State × List Int)
  | [], s => some (s, [])
  | i :: is, s =>
    match transact (encode i) s with
    | none => none
    | some (t, r) =>
      match issueAll is t with
      | none => none
      | some (u, os) => some (u, frameSample r :: os)

/-- Each frame's Sample on every output channel (46_frame.md R903). -/
def broadcast (channels : Nat) (samples : List Int) : List Int :=
  samples.flatMap (List.replicate channels)

/-- `process(inputFrame, outputFrame, frameCount)` (46_frame.md R900, R901), with `CHAN` read once at
the start. None is a call whose buffer is not `count * IN_CH` Samples, a caller error that the spec
does not describe (log entry 10). -/
def processFrame (count : Nat) (input : Option (List Int)) (s : State) : Option ProcessResult :=
  if inputOk s.chan count input then
    match issueAll (frameInstrs s.chan count input) s with
    | none => none
    | some (t, os) => some ⟨t, broadcast (chanOut s.chan) os, .cont⟩
  else none

end Sys2Proof.Machine
end

