-- ==== Sys2Proof/Machine/Asm.lean ====
section
/-! DEFINITION. The assembler: mnemonic lines, pseudo-commands and their text (spec 30_encoding.md
section 6). An operand outside its range is an assembly error (`none`), never a word (R340). Text is
a list of characters; what R340 and R342 leave open of it is log entry 11. -/

namespace Sys2Proof.Machine

/-- A real literal: a sign and a decimal fraction `num / den`. -/
structure RealLit where
  neg : Bool
  num : Nat
  den : Nat
  deriving DecidableEq, Repr

/-- One line, its operands read as numbers: the mnemonics of 30_encoding.md R340, then the
pseudo-commands of R342. -/
inductive AsmLine where
  | nop
  | cfgRd (reg : Nat)
  | cfgWr (reg value : Nat)
  | start
  | stop
  | proc (noise fb : Int)
  | procNoin
  | rdState (sel index : Nat)
  | cfgWrf (reg : Nat) (x : RealLit)
  | setVariant (v : Variant)
  | setGate (threshold : Nat) (adapt : Bool)
  | setChan (inCh outCh noiseCh fbCh : Nat)
  | rdW (index : Nat)
  | rdD (index : Nat)
  | frame (count : Nat) (absent : Bool)
  deriving DecidableEq, Repr

/-- What FRAME takes from the host: the channel layout and the input buffer (30_encoding.md R342). That
one such pair serves every FRAME line of a text is DESIGN CHOICE (log entry 17). -/
structure AsmEnv where
  chan  : Word32
  input : List Int
  deriving DecidableEq, Repr

/-- A number that fits a field of `k` bits, as that field. -/
def fieldOf (k n : Nat) : Option (BitVec k) :=
  if n < 2 ^ k then some (BitVec.ofNat k n) else none

/-- The binary32 of a real literal, rounded by 00_scope.md R24; +0.0 for zero (30_encoding.md
R342). -/
def realBits (x : RealLit) : F32 := if x.num = 0 then 0x00000000#32 else rne x.neg x.num x.den

/-- The CFG_WR that a register number and a word spell. -/
def cfgWrLine (reg : Nat) (value : Word32) : Option (List Instr) :=
  (fieldOf 16 reg).map fun r => [.cfgWr r value]

/-- The RD_STATE that a selector and an index spell. -/
def rdStateLine (sel index : Nat) : Option (List Instr) :=
  (fieldOf 4 sel).bind fun s => (fieldOf 16 index).map fun i => [.rdState s i]

/-- The commands of a line (30_encoding.md R340, R342). -/
def expandLine (env : AsmEnv) : AsmLine → Option (List Instr)
  | .nop => some [.nop]
  | .cfgRd reg => (fieldOf 16 reg).map fun r => [.cfgRd r]
  | .cfgWr reg value => (fieldOf 32 value).bind fun v => cfgWrLine reg v
  | .start => some [.start]
  | .stop => some [.stop]
  | .proc noise fb =>
    if sampleInRange noise && sampleInRange fb then some [.proc noise fb] else none
  | .procNoin => some [.procNoin]
  | .rdState sel index => rdStateLine sel index
  | .cfgWrf reg x => cfgWrLine reg (realBits x)
  | .setVariant v => some [.cfgWr (regIndex .variant) (variantWord v)]
  | .setGate threshold adapt =>
    (fieldOf 16 threshold).map fun t =>
      [.cfgWr (regIndex .gate) ((if adapt then (1 : BitVec 16) else 0) ++ t)]
  | .setChan inCh outCh noiseCh fbCh =>
    (fieldOf 8 inCh).bind fun i => (fieldOf 8 outCh).bind fun o =>
      (fieldOf 8 noiseCh).bind fun n => (fieldOf 8 fbCh).map fun f =>
        [.cfgWr (regIndex .chan) (f ++ (n ++ (o ++ i)))]
  | .rdW index => rdStateLine 0 index
  | .rdD index => rdStateLine 1 index
  | .frame count absent =>
    let input := if absent then none else some env.input
    if inputOk env.chan count input then some (frameInstrs env.chan count input) else none

/-- A blank within a line. -/
def isBlank (c : Char) : Bool := c == ' ' || c == '\t' || c == '\r'

/-- The text without blanks at either end. -/
def trimBlanks (cs : List Char) : List Char :=
  ((cs.dropWhile isBlank).reverse.dropWhile isBlank).reverse

/-- The pieces of a text between the separators `sep`. -/
def splitAt (sep : Char) : List Char → List (List Char)
  | [] => [[]]
  | c :: cs =>
    match splitAt sep cs with
    | [] => [[c]]
    | piece :: rest => if c == sep then [] :: piece :: rest else (c :: piece) :: rest

/-- The value of a digit in base 16; base 10 takes those below 10. -/
def digitValue (c : Char) : Option Nat :=
  let n := c.toNat
  if 48 ≤ n && n ≤ 57 then some (n - 48)
  else if 65 ≤ n && n ≤ 70 then some (n - 55)
  else if 97 ≤ n && n ≤ 102 then some (n - 87)
  else none

/-- Digits of a base, after those already read as `acc`. -/
def digitsFrom (base : Nat) : Nat → List Char → Option Nat
  | acc, [] => some acc
  | acc, c :: cs =>
    match digitValue c with
    | some v => if v < base then digitsFrom base (acc * base + v) cs else none
    | none => none

/-- At least one digit of a base. -/
def parseDigits (base : Nat) (cs : List Char) : Option Nat :=
  if cs.isEmpty then none else digitsFrom base 0 cs

/-- A number, decimal or hexadecimal with `0x` (30_encoding.md R340). -/
def parseNat : List Char → Option Nat
  | '0' :: 'x' :: cs => parseDigits 16 cs
  | cs => parseDigits 10 cs

/-- A number with an optional minus sign. -/
def parseInt : List Char → Option Int
  | '-' :: cs => (parseNat cs).map fun n => -(n : Int)
  | cs => (parseNat cs).map fun n => (n : Int)

/-- Decimal digits with an optional decimal point between digits. -/
def parseDecimal (neg : Bool) (cs : List Char) : Option RealLit :=
  match splitAt '.' cs with
  | [whole] => (parseDigits 10 whole).map fun n => ⟨neg, n, 1⟩
  | [whole, frac] =>
    (parseDigits 10 whole).bind fun n => (parseDigits 10 frac).map fun f =>
      ⟨neg, n * 10 ^ frac.length + f, 10 ^ frac.length⟩
  | _ => none

/-- A real literal. -/
def parseReal : List Char → Option RealLit
  | '-' :: cs => parseDecimal true cs
  | cs => parseDecimal false cs

/-- The name of a register (10_state.md section 3). -/
def regName : Reg → String
  | .id      => "ID"
  | .cap     => "CAP"
  | .status  => "STATUS"
  | .variant => "VARIANT"
  | .gate    => "GATE"
  | .kp      => "KP"
  | .ki      => "KI"
  | .kd      => "KD"
  | .mu      => "MU"
  | .len     => "LEN"
  | .gain    => "GAIN"
  | .chan    => "CHAN"
  | .srate   => "SRATE"
  | .frames  => "FRAMES"

/-- `<reg>`: a register name or a number (30_encoding.md R340). -/
def parseReg (cs : List Char) : Option Nat :=
  match allRegs.find? (fun r => (regName r).toList == cs) with
  | some r => some (regIndex r).toNat
  | none => parseNat cs

/-- `<sel>`: a state name or a number (30_encoding.md R340). -/
def parseSel (cs : List Char) : Option Nat :=
  if cs == "W".toList then some 0
  else if cs == "D".toList then some 1
  else if cs == "INTEGRAL".toList then some 2
  else if cs == "PREVERR".toList then some 3
  else parseNat cs

/-- The variant names of SET_VARIANT (30_encoding.md R342). -/
def parseVariant (cs : List Char) : Option Variant :=
  if cs == "PID".toList then some .pid
  else if cs == "LMS".toList then some .lms
  else if cs == "DIRECT".toList then some .direct
  else none

/-- A line's mnemonic with its operands (30_encoding.md R340, R342). -/
def parseCommand (mnemonic : List Char) (ops : List (List Char)) : Option AsmLine :=
  if mnemonic == "NOP".toList then (match ops with | [] => some .nop | _ => none)
  else if mnemonic == "START".toList then (match ops with | [] => some .start | _ => none)
  else if mnemonic == "STOP".toList then (match ops with | [] => some .stop | _ => none)
  else if mnemonic == "PROC_NOIN".toList then (match ops with | [] => some .procNoin | _ => none)
  else if mnemonic == "CFG_RD".toList then
    (match ops with | [r] => (parseReg r).map .cfgRd | _ => none)
  else if mnemonic == "CFG_WR".toList then
    (match ops with
    | [r, v] => (parseReg r).bind fun r => (parseNat v).map fun v => .cfgWr r v
    | _ => none)
  else if mnemonic == "PROC".toList then
    (match ops with
    | [n, f] => (parseInt n).bind fun n => (parseInt f).map fun f => .proc n f
    | _ => none)
  else if mnemonic == "RD_STATE".toList then
    (match ops with
    | [s, i] => (parseSel s).bind fun s => (parseNat i).map fun i => .rdState s i
    | [s] =>
      if s == "INTEGRAL".toList then some (.rdState 2 0)
      else if s == "PREVERR".toList then some (.rdState 3 0)
      else none
    | _ => none)
  else if mnemonic == "CFG_WRF".toList then
    (match ops with
    | [r, x] => (parseReg r).bind fun r => (parseReal x).map fun x => .cfgWrf r x
    | _ => none)
  else if mnemonic == "SET_VARIANT".toList then
    (match ops with | [v] => (parseVariant v).map .setVariant | _ => none)
  else if mnemonic == "SET_GATE".toList then
    (match ops with
    | [t] => (parseNat t).map fun t => .setGate t false
    | [t, a] => if a == "ADAPT".toList then (parseNat t).map fun t => .setGate t true else none
    | _ => none)
  else if mnemonic == "SET_CHAN".toList then
    (match ops with
    | [i, o, n, f] =>
      (parseNat i).bind fun i => (parseNat o).bind fun o => (parseNat n).bind fun n =>
        (parseNat f).map fun f => .setChan i o n f
    | _ => none)
  else if mnemonic == "RD_W".toList then
    (match ops with | [i] => (parseNat i).map .rdW | _ => none)
  else if mnemonic == "RD_D".toList then
    (match ops with | [i] => (parseNat i).map .rdD | _ => none)
  else if mnemonic == "FRAME".toList then
    (match ops with
    | [c] => (parseNat c).map fun c => .frame c false
    | [c, a] => if a == "ABSENT".toList then (parseNat c).map fun c => .frame c true else none
    | _ => none)
  else none

/-- The operands after a mnemonic, separated by commas. -/
def operandTexts (cs : List Char) : List (List Char) :=
  if (trimBlanks cs).isEmpty then [] else (splitAt ',' cs).map trimBlanks

/-- The commands of one line of text; `;` to the end of the line is a comment, and a line with
nothing else gives none (30_encoding.md R340). -/
def assembleLine (env : AsmEnv) (line : List Char) : Option (List Instr) :=
  let code := trimBlanks (line.takeWhile (fun c => c != ';'))
  if code.isEmpty then some []
  else
    let mnemonic := code.takeWhile (fun c => !isBlank c)
    let operands := code.dropWhile (fun c => !isBlank c)
    (parseCommand mnemonic (operandTexts operands)).bind (expandLine env)

/-- The commands of lines, in order; one bad line is an error of the whole. -/
def assembleLines (env : AsmEnv) : List (List Char) → Option (List Instr)
  | [] => some []
  | line :: rest =>
    match assembleLine env line, assembleLines env rest with
    | some is, some js => some (is ++ js)
    | _, _ => none

/-- The commands of a text, one command per line (30_encoding.md R340). DESIGN CHOICE (log entry 17):
every FRAME line gets the same CHAN word and input buffer, `env`'s, so an earlier SET_CHAN or CFG_WR of
CHAN in the text does not change the layout it uses, and each FRAME without ABSENT must have a count
that the one buffer fits, or the text is an error. -/
def assemble (env : AsmEnv) (text : List Char) : Option (List Instr) :=
  assembleLines env (splitAt '\n' text)

end Sys2Proof.Machine
end

