-- ==== Sys2Proof/Safety.lean ====
section
/-! DEFINITION. What a state that the core can hold looks like: the invariant that every step keeps,
in the terms that claims use. -/

namespace Sys2Proof.Machine

/-- The binary32 of an integer of magnitude at most `m`. -/
def intValued (m : Nat) (x : F32) : Prop := ∃ i : Int, i.natAbs ≤ m ∧ x = i2f i

/-- A response word that the core can give: RRSV is 0 (30_encoding.md R320), the status is one of
R1001 of 60_exceptions.md, a status that is not OK comes with nothing else (30_encoding.md R321), and
OUT is never -32768 (41_sample.md R533). -/
structure legalResponse (r : Word64) : Prop where
  reserved : rspReserved r = 0
  status   : rspStatus r ≤ 7
  errors   : rspStatus r ≠ 0 → rspData r = 0 ∧ rspAct r = false ∧ rspOut r = 0
  out      : rspOut r ≠ 0x8000

/-- The invariant of the core's states. -/
structure State.Inv (s : State) : Prop where
  /-- NMAX lies in its range (00_scope.md R11). -/
  nmaxRange : 128 ≤ s.nmax ∧ s.nmax ≤ 65535
  /-- `W` holds NMAX elements (10_state.md R130). -/
  wLength : s.w.length = s.nmax
  /-- `D` holds NMAX elements (10_state.md R131). -/
  dLength : s.d.length = s.nmax
  /-- Every register with illegal values holds a legal one (10_state.md R110). -/
  gateLegal : legalGate s.gate = true
  lenLegal : legalLen s.nmax s.len = true
  chanLegal : legalChan s.chan = true
  /-- Every element of `D` is a Sample (10_state.md R131). -/
  dSamples : ∀ x ∈ s.d, ∃ i : Int, sampleInRange i = true ∧ x = i2f i
  /-- `PREVERR` is an integer of magnitude at most 65535 (10_state.md R133). -/
  prevErrInt : intValued 65535 s.prevErr
  /-- No tap is -0.0 (43_lms.md R712). -/
  tapsNotNegZero : ∀ x ∈ s.w, x ≠ 0x80000000
  /-- In a session, the elements from N on are +0.0 (45_readback.md R852). -/
  tailZero : s.mode = .running →
    (∀ x ∈ s.w.drop (tapCount s), x = 0) ∧ ∀ x ∈ s.d.drop (tapCount s), x = 0
  /-- In a session, the state of the variants not selected is +0.0 (10_state.md R136). -/
  unusedZero : s.mode = .running →
    (s.variant ≠ .lms → (∀ x ∈ s.w, x = 0) ∧ ∀ x ∈ s.d, x = 0) ∧
    (s.variant ≠ .pid → s.integral = 0 ∧ s.prevErr = 0)
  /-- A response held for the host is one that the core can give. -/
  portLegal : ∀ r, rspPending s = some r → legalResponse r

/-- What a host can ever see of a state apart from the filter state: the mode, every configuration
register, and the ports. -/
def sameOutside (s t : State) : Prop :=
  { s with w := [], d := [], integral := 0, prevErr := 0 } =
    { t with w := [], d := [], integral := 0, prevErr := 0 }

/-- Two states that differ at most in filter state that no command can observe: elements from N on,
and, when no session is open, all of it (10_state.md R134, R130; 45_readback.md R852). -/
structure sameVisible (s t : State) : Prop where
  outside : sameOutside s t
  lengths : s.w.length = t.w.length ∧ s.d.length = t.d.length
  filter : s.mode = .running →
    s.w.take (tapCount s) = t.w.take (tapCount t) ∧ s.d.take (tapCount s) = t.d.take (tapCount t) ∧
      s.integral = t.integral ∧ s.prevErr = t.prevErr

/-- `z` is the exact value `num / den`, in units of 2^-149, rounded to binary32 by 00_scope.md R24:
to the nearest finite value, of two equally near to the one with an even significand, and to infinity
exactly from `2^128 - 2^103` on. -/
structure correctlyRounded (num : Int) (den : Nat) (z : F32) : Prop where
  sign     : f32Sign z = decide (num < 0)
  notNaN   : f32IsNaN z = false
  overflow : f32IsInf z = true ↔ den * (f32Over - 2 ^ 103 * 2 ^ 149) ≤ num.natAbs
  nearest  : f32IsFinite z = true → ∀ y, f32IsFinite y = true →
    (f32Scaled z * den - num).natAbs ≤ (f32Scaled y * den - num).natAbs
  tiesEven : f32IsFinite z = true → ∀ y, f32IsFinite y = true →
    (f32Scaled y * den - num).natAbs = (f32Scaled z * den - num).natAbs →
    f32Scaled y = f32Scaled z ∨ f32Frac z % 2 = 0

/-- `k` clock edges: the state after them, the command words accepted and the response words taken,
each in order (30_encoding.md R301, R302). -/
def runEdges : Nat → State → Option (State × List Word64 × List Word64)
  | 0, s => some (s, [], [])
  | k + 1, s =>
    match step s with
    | .next t =>
      match runEdges k t with
      | some (u, ws, rs) => some (u, (acceptedWord s).toList ++ ws, (takenWord s).toList ++ rs)
      | none => none
    | .fault _ => none
    | .refused _ => none

end Sys2Proof.Machine
end

