-- ==== Sys2Proof/Certificates/Slice0/Obligations.lean ====
section
/-! DEFINITION. The statements for the provers. A result is written out as the whole next state, so
that a statement also says what stays as it was. Response words are spelled bit by bit (spec
30_encoding.md R320): DATA, then STATUS, RRSV, ACT, OUT. -/

open Sys2Proof Sys2Proof.Machine

/-! ## Encoding -/

/-- Every command whose operands are in range has a word that decodes to it: no bit of an encoding is
dropped (30_encoding.md R307, R308, R341). -/
def Obligations.EncodedCommandDecodesToItself : Prop :=
  ∀ i : Instr, i.wellFormed = true → decode (encode i) = .ok i

/-- A word that decodes is the one word of its command, and the command's operands are in range
(30_encoding.md R307, R308, R331, R341). -/
def Obligations.DecodedWordIsItsCommandsOnlyWord : Prop :=
  ∀ (w : Word64) (i : Instr), decode w = .ok i → encode i = w ∧ i.wellFormed = true

/-- R331: the decoder is total and follows the mask and match table: a word that matches a row is that
row's command; a word that matches none is illegal, since its OP is 0x8 to 0xF or it has a nonzero
must-be-0 field. -/
def Obligations.DecoderFollowsTheMatchTable : Prop :=
  ∀ w : Word64,
    (∀ row ∈ opcodeTable, w &&& row.mask = row.pattern →
      ∃ i, decode w = .ok i ∧ opcodeOfInstr i = row.opcode) ∧
    ((∀ row ∈ opcodeTable, w &&& row.mask ≠ row.pattern) → ∃ e, decode w = .error e) ∧
    (decode w = .error .reservedOpcode ↔ 0x8 ≤ (w.extractLsb' 60 4).toNat) ∧
    (decode w = .error .nonzeroField ↔
      ∃ o, opcodeOf (w.extractLsb' 60 4) = some o ∧ unusedZero o (fieldsOf w) = false)

/-- The eight patterns are disjoint: a word matches at most one row (30_encoding.md R330). -/
def Obligations.NoWordMatchesTwoOpcodePatterns : Prop :=
  ∀ (w : Word64), ∀ r ∈ opcodeTable, ∀ q ∈ opcodeTable,
    w &&& r.mask = r.pattern → w &&& q.mask = q.pattern → r = q

/-- One word of each command, written out from the spec's encodings (30_encoding.md R341 and
95_test_vectors.md), decodes to the command. -/
def Obligations.WrittenOutWordsDecode : Prop :=
  decode 0x0000000000000000 = .ok .nop ∧
  decode 0x1000000800000000 = .ok (.cfgRd 8) ∧
  decode 0x2000000900000004 = .ok (.cfgWr 9 4) ∧
  decode 0x3000000000000000 = .ok .start ∧
  decode 0x4000000000000000 = .ok .stop ∧
  decode 0x50000000FE0C02BC = .ok (.proc (-500) 700) ∧
  decode 0x6000000000000000 = .ok .procNoin ∧
  decode 0x7300FFFF00000000 = .ok (.rdState 3 0xFFFF)

/-- A byte transport carries byte k as bits [8k+7:8k], and eight bytes give the word back
(20_memory.md R203). -/
def Obligations.ByteTransportCarriesTheWord : Prop :=
  ∀ (w : Word64) (rest : List Byte),
    (∀ k j, k < 8 → j < 8 → (byteOfWord w k).getLsbD j = w.getLsbD (8 * k + j)) ∧
    takeWord (bytesOfWord w ++ rest) = some (w, rest)

/-! ## Steps, ports, reset -/

/-- A step runs the decoded command: at an edge without reset, with the core ready and a word offered,
the step is `exec` of the command the word spells, at the state with that edge past. -/
def Obligations.ReadyEdgeRunsTheDecodedCommand : Prop :=
  ∀ (s : State) (e : Edge) (rest : List Edge) (i : Instr),
    s.edges = e :: rest → s.port = .ready → e.rst = false → e.cmdValid = true →
    decode e.cmdData = .ok i → step s = exec i { s with edges := rest }

/-- R335: an illegal word has no effect on any state, whatever the mode, and is answered ILLEGAL. -/
def Obligations.IllegalWordIsAnsweredWithoutEffect : Prop :=
  ∀ (s : State) (e : Edge) (rest : List Edge) (why : Illegal),
    s.edges = e :: rest → s.port = .ready → e.rst = false → e.cmdValid = true →
    decode e.cmdData = .error why →
    step s = .next { s with edges := rest, port := .busy 0x0000000001000000 }

/-- Every 64-bit word is answered, in every state, and leaves the core ready for the next
(30_encoding.md R305, R331; 60_exceptions.md R1000). -/
def Obligations.EveryCommandWordIsAnswered : Prop :=
  ∀ (w : Word64) (s : State), ∃ t r, transact w s = some (t, r) ∧ t.port = .ready ∧
    t.nmax = s.nmax ∧ t.edges = s.edges

/-- R303: `cmd_ready` is 1 from reset until the first acceptance and from each response being taken
until the next acceptance, and 0 from the acceptance of a command until its response is taken. -/
def Obligations.CmdReadyFollowsTheHandshake : Prop :=
  ∀ s t : State, step s = .next t →
    cmdReady t =
      (if (nextEdge s).rst then true
       else if (acceptedWord s).isSome then false
       else if (takenWord s).isSome then true
       else cmdReady s)

/-- A response offered is held unchanged until it is taken or the core is reset, and a command in
flight keeps the response it was given (30_encoding.md R302). -/
def Obligations.PendingResponseIsHeldUntilTaken : Prop :=
  ∀ (s t : State) (r : Word64), step s = .next t → (nextEdge s).rst = false →
    takenWord s = none → rspPending s = some r →
    rspPending t = some r ∧ (rspOffered s = some r → rspOffered t = some r)

/-- The clocked core refines the transaction-level step: over any number of edges without reset, from
a core with no command in flight, the words accepted, run one after another through `transact`, give
the core's state, and the responses taken so far, then the one still pending, are exactly the
responses of `transact`, in order (30_encoding.md R302, R305; 20_memory.md R220, R221). -/
def Obligations.ClockedRunIsItsTransactionSequence : Prop :=
  ∀ (k : Nat) (s : State), s.port = .ready → (∀ e ∈ s.edges, e.rst = false) →
    ∃ t ws rs u, runEdges k s = some (t, ws, rs) ∧
      transactAll ws s = some (u, rs ++ (rspPending t).toList) ∧
      t = { u with port := t.port, edges := s.edges.drop k }

/-- R304: while `cmd_valid = 0`, for any number of edges, no state changes but the handshake's, and a
core with no command in flight stays so. -/
def Obligations.NothingHappensWithoutACommand : Prop :=
  ∀ (k : Nat) (s : State), (∀ e ∈ s.edges, e.rst = false ∧ e.cmdValid = false) →
    ∃ t rs, runEdges k s = some (t, [], rs) ∧
      t = { s with port := t.port, edges := s.edges.drop k } ∧
      (s.port = .ready → t.port = .ready)

/-- R1100, R1101: from any state at all, an edge with `rst = 1` sets the whole state to its reset
values and drops any command in flight. -/
def Obligations.ResetEdgeLeavesTheResetState : Prop :=
  ∀ (s : State) (e : Edge) (rest : List Edge), s.edges = e :: rest → e.rst = true →
    acceptedWord s = none ∧
    step s = .next
      { nmax := s.nmax, mode := .idle, variant := .lms, gate := 0x00000000, kp := 0x3E800000,
        ki := 0x00000000, kd := 0x3D4CCCCD, mu := 0x3A83126F, len := 0x00000080,
        gain := 0x3F800000, chan := 0x01000202, srate := 0x0000BB80, frames := 0x00000400,
        w := List.replicate s.nmax 0x00000000, d := List.replicate s.nmax 0x00000000,
        integral := 0x00000000, prevErr := 0x00000000, port := .ready, edges := rest }

/-- R140: every register reads its reset value, the filter state is +0.0, and no session is open. The
port's being ready is 70_reset_and_hazards.md R1100; that no edge is listed is the model's choice
(log entry 2) and is not claimed. -/
def Obligations.ResetRegistersReadTheirValues : Prop :=
  State.reset = State.resetOf Config.nmax ∧ 128 ≤ Config.nmax ∧ Config.nmax ≤ 65535 ∧
  ∀ n : Nat,
    let s := State.resetOf n
    s.mode = .idle ∧
    readReg s .id = 0x414E4301 ∧ readReg s .cap = (0 : BitVec 16) ++ BitVec.ofNat 16 n ∧
    readReg s .status = 0x00000000 ∧ readReg s .variant = 0x00000001 ∧
    readReg s .gate = 0x00000000 ∧ readReg s .kp = 0x3E800000 ∧ readReg s .ki = 0x00000000 ∧
    readReg s .kd = 0x3D4CCCCD ∧ readReg s .mu = 0x3A83126F ∧ readReg s .len = 0x00000080 ∧
    readReg s .gain = 0x3F800000 ∧ readReg s .chan = 0x01000202 ∧
    readReg s .srate = 0x0000BB80 ∧ readReg s .frames = 0x00000400 ∧
    s.w = List.replicate n 0 ∧ s.d = List.replicate n 0 ∧ s.integral = 0 ∧ s.prevErr = 0 ∧
    s.port = .ready

/-- The core never stops: every edge has a next state (60_exceptions.md R1000, R1004). -/
def Obligations.EveryEdgeHasANextState : Prop := ∀ s : State, ∃ t, step s = .next t

/-! ## Control and configuration commands -/

/-- R400: NOP has the all-zero word, is answered OK in both modes, and changes nothing. -/
def Obligations.NopIsAnsweredOk : Prop :=
  encode .nop = 0x0000000000000000 ∧
  ∀ s : State, exec .nop s = .next { s with port := .busy 0x0000000000000000 }

/-- R410: CFG_RD answers the register's value in both modes and changes nothing; an unmapped index is
answered BAD_INDEX. -/
def Obligations.CfgRdAnswersTheRegister : Prop :=
  (∀ idx : BitVec 16, encode (.cfgRd idx) = (0x1000 : BitVec 16) ++ (idx ++ (0 : BitVec 32))) ∧
  ∀ s : State,
    let answer : Word32 → Host.Outcome State Fault Refusal :=
      fun v => .next { s with port := .busy (v ++ (0 : BitVec 32)) }
    exec (.cfgRd 0x0000) s = answer 0x414E4301 ∧
    exec (.cfgRd 0x0001) s = answer ((0 : BitVec 16) ++ BitVec.ofNat 16 s.nmax) ∧
    (s.mode = .idle → exec (.cfgRd 0x0002) s = answer 0) ∧
    (s.mode = .running → exec (.cfgRd 0x0002) s = answer 1) ∧
    (s.variant = .pid → exec (.cfgRd 0x0003) s = answer 0) ∧
    (s.variant = .lms → exec (.cfgRd 0x0003) s = answer 1) ∧
    (s.variant = .direct → exec (.cfgRd 0x0003) s = answer 2) ∧
    exec (.cfgRd 0x0004) s = answer s.gate ∧
    exec (.cfgRd 0x0005) s = answer s.kp ∧
    exec (.cfgRd 0x0006) s = answer s.ki ∧
    exec (.cfgRd 0x0007) s = answer s.kd ∧
    exec (.cfgRd 0x0008) s = answer s.mu ∧
    exec (.cfgRd 0x0009) s = answer s.len ∧
    exec (.cfgRd 0x000A) s = answer s.gain ∧
    exec (.cfgRd 0x000B) s = answer s.chan ∧
    exec (.cfgRd 0x000C) s = answer s.srate ∧
    exec (.cfgRd 0x000D) s = answer s.frames ∧
    ∀ idx : BitVec 16, 0x000D < idx.toNat →
      exec (.cfgRd idx) s = .next { s with port := .busy 0x0000000005000000 }

/-- R420, with the legality rules R114, R115, R120, R122: CFG_WR is refused in a session, then for an
unmapped index, then for a read-only register, then for an illegal value; otherwise it writes the
whole register and nothing else. -/
def Obligations.CfgWrWritesOrRefuses : Prop :=
  (∀ (idx : BitVec 16) (v : Word32),
    encode (.cfgWr idx v) = (0x2000 : BitVec 16) ++ (idx ++ v)) ∧
  ∀ (s : State) (v : Word32),
    let refused : Word64 → Host.Outcome State Fault Refusal := fun r => .next { s with port := .busy r }
    (s.mode = .running → ∀ idx, exec (.cfgWr idx v) s = refused 0x0000000003000000) ∧
    (s.mode = .idle →
      (∀ idx : BitVec 16, 0x000D < idx.toNat →
        exec (.cfgWr idx v) s = refused 0x0000000005000000) ∧
      (∀ idx : BitVec 16, idx.toNat ≤ 0x0002 →
        exec (.cfgWr idx v) s = refused 0x0000000006000000) ∧
      (v = 0 → exec (.cfgWr 0x0003 v) s = .next { s with variant := .pid, port := .busy 0 }) ∧
      (v = 1 → exec (.cfgWr 0x0003 v) s = .next { s with variant := .lms, port := .busy 0 }) ∧
      (v = 2 → exec (.cfgWr 0x0003 v) s = .next { s with variant := .direct, port := .busy 0 }) ∧
      (3 ≤ v.toNat → exec (.cfgWr 0x0003 v) s = refused 0x0000000007000000) ∧
      (v.toNat < 2 ^ 17 → exec (.cfgWr 0x0004 v) s = .next { s with gate := v, port := .busy 0 }) ∧
      (2 ^ 17 ≤ v.toNat → exec (.cfgWr 0x0004 v) s = refused 0x0000000007000000) ∧
      exec (.cfgWr 0x0005 v) s = .next { s with kp := v, port := .busy 0 } ∧
      exec (.cfgWr 0x0006 v) s = .next { s with ki := v, port := .busy 0 } ∧
      exec (.cfgWr 0x0007 v) s = .next { s with kd := v, port := .busy 0 } ∧
      exec (.cfgWr 0x0008 v) s = .next { s with mu := v, port := .busy 0 } ∧
      (1 ≤ v.toNat ∧ v.toNat ≤ s.nmax →
        exec (.cfgWr 0x0009 v) s = .next { s with len := v, port := .busy 0 }) ∧
      (v.toNat = 0 ∨ s.nmax < v.toNat →
        exec (.cfgWr 0x0009 v) s = refused 0x0000000007000000) ∧
      exec (.cfgWr 0x000A v) s = .next { s with gain := v, port := .busy 0 } ∧
      (∀ inCh outCh noiseCh fbCh : BitVec 8, v = fbCh ++ (noiseCh ++ (outCh ++ inCh)) →
        let good := 1 ≤ inCh.toNat ∧ 1 ≤ outCh.toNat ∧ noiseCh.toNat < inCh.toNat ∧
          fbCh.toNat < inCh.toNat
        (good → exec (.cfgWr 0x000B v) s = .next { s with chan := v, port := .busy 0 }) ∧
        (¬good → exec (.cfgWr 0x000B v) s = refused 0x0000000007000000)) ∧
      exec (.cfgWr 0x000C v) s = .next { s with srate := v, port := .busy 0 } ∧
      exec (.cfgWr 0x000D v) s = .next { s with frames := v, port := .busy 0 })

/-- A value that is accepted reads back bit for bit, and no other register reads differently
(10_state.md R110). -/
def Obligations.AcceptedValueReadsBack : Prop :=
  ∀ (s t : State) (idx : BitVec 16) (v : Word32) (r : Word64),
    exec (.cfgWr idx v) s = .next t → t.port = .busy r → rspStatus r = 0 →
    exec (.cfgRd idx) t = .next { t with port := .busy (v ++ (0 : BitVec 32)) } ∧
    ∀ (j : BitVec 16) (u u' : State), j ≠ idx → exec (.cfgRd j) s = .next u →
      exec (.cfgRd j) t = .next u' → u'.port = u.port

/-- R430: START opens a session from IDLE with all filter state at +0.0 and every configuration
register kept; in an open session it is refused and the session goes on untouched. -/
def Obligations.StartOpensASession : Prop :=
  encode .start = 0x3000000000000000 ∧
  ∀ s : State,
    (s.mode = .idle → exec .start s = .next
      { s with
        w := List.replicate s.nmax 0x00000000, d := List.replicate s.nmax 0x00000000,
        integral := 0x00000000, prevErr := 0x00000000, mode := .running, port := .busy 0 }) ∧
    (s.mode = .running → exec .start s = .next { s with port := .busy 0x0000000004000000 })

/-- R440: STOP closes the session and keeps the filter state; with no session open it is refused. What
is kept cannot be read, since RD_STATE fails NOT_RUNNING, and the next START zeroes it. -/
def Obligations.StopClosesTheSession : Prop :=
  encode .stop = 0x4000000000000000 ∧
  ∀ s : State,
    (s.mode = .running →
      let t : State := { s with mode := .idle, port := .busy 0 }
      exec .stop s = .next t ∧
      (∀ sel idx, exec (.rdState sel idx) t = .next { t with port := .busy 0x0000000002000000 }) ∧
      exec .start t = .next
        { s with
          w := List.replicate s.nmax 0x00000000, d := List.replicate s.nmax 0x00000000,
          integral := 0x00000000, prevErr := 0x00000000, mode := .running, port := .busy 0 }) ∧
    (s.mode = .idle → exec .stop s = .next { s with port := .busy 0x0000000002000000 })

/-- While a session is open, no edge but a reset changes a configuration register (10_state.md R102,
R110, R120; 70_reset_and_hazards.md R1112). -/
def Obligations.ConfigurationIsFixedInASession : Prop :=
  ∀ s t : State, step s = .next t → s.mode = .running → (nextEdge s).rst = false →
    ∀ r : Reg, r ≠ .status → readReg t r = readReg s r

/-- Only a reset, an accepted START in IDLE and an accepted STOP in RUNNING change MODE
(10_state.md R102). -/
def Obligations.OnlyStartStopAndResetChangeMode : Prop :=
  ∀ s t : State, step s = .next t → t.mode ≠ s.mode →
    (nextEdge s).rst = true ∨
    (s.mode = .idle ∧ acceptedWord s = some 0x3000000000000000) ∨
    (s.mode = .running ∧ acceptedWord s = some 0x4000000000000000)

/-! ## Status and response -/

/-- R1002: a command, legal or not, whose status is not OK changes no state at all, and its response
is `{32'b0, STATUS, 24'b0}`. -/
def Obligations.FailedCommandChangesNothing : Prop :=
  ∀ (w : Word64) (s t : State) (r : Word64),
    acceptWord w s = .next t → t.port = .busy r → rspStatus r ≠ 0 →
    t = { s with port := .busy r } ∧ r = (0 : BitVec 32) ++ (rspStatus r ++ (0 : BitVec 24))

/-- R1003: the status is that of the first check that fails: ILLEGAL, then the mode check, then
BAD_INDEX, then READ_ONLY, then BAD_VALUE. -/
def Obligations.FirstFailingCheckIsReported : Prop :=
  ∀ (w : Word64) (s t : State) (r : Word64), transact w s = some (t, r) →
    (∀ e, decode w = .error e → rspStatus r = 0x01) ∧
    (s.mode = .idle →
      (∀ n f, decode w = .ok (.proc n f) → rspStatus r = 0x02) ∧
      (decode w = .ok .procNoin → rspStatus r = 0x02) ∧
      (decode w = .ok .stop → rspStatus r = 0x02) ∧
      (∀ sel idx, decode w = .ok (.rdState sel idx) → rspStatus r = 0x02) ∧
      (∀ idx v, decode w = .ok (.cfgWr idx v) →
        (0x000D < idx.toNat → rspStatus r = 0x05) ∧
        (idx.toNat ≤ 0x0002 → rspStatus r = 0x06) ∧
        (∀ reg, idx = regIndex reg → readOnlyReg reg = false → legalValue s.nmax reg v = false →
          rspStatus r = 0x07))) ∧
    (s.mode = .running →
      (∀ idx v, decode w = .ok (.cfgWr idx v) → rspStatus r = 0x03) ∧
      (decode w = .ok .start → rspStatus r = 0x04) ∧
      (∀ sel idx, decode w = .ok (.rdState sel idx) →
        (sel.toNat ≤ 1 ∧ s.len.toNat ≤ idx.toNat) ∨ ((sel = 2 ∨ sel = 3) ∧ idx ≠ 0) ∨
          4 ≤ sel.toNat →
        rspStatus r = 0x05)) ∧
    (∀ idx, decode w = .ok (.cfgRd idx) → 0x000D < idx.toNat → rspStatus r = 0x05)

/-- R321, and what R320 and R1001 of 60_exceptions.md say of every response: RRSV is 0, no status
above 7 is given, a status that is not OK comes with nothing else, ACT and OUT are 0 but for PROC, and
DATA is 0 but for CFG_RD, RD_STATE and PROC. -/
def Obligations.ResponseFieldsAreZeroWhereUnused : Prop :=
  ∀ (w : Word64) (s t : State) (r : Word64), transact w s = some (t, r) →
    rspReserved r = 0 ∧ rspStatus r ≤ 7 ∧
    (rspStatus r ≠ 0 → rspData r = 0 ∧ rspAct r = false ∧ rspOut r = 0 ∧
      r = (0 : BitVec 32) ++ (rspStatus r ++ (0 : BitVec 24))) ∧
    ((∀ n f, decode w ≠ .ok (.proc n f)) → rspAct r = false ∧ rspOut r = 0) ∧
    ((∀ n f, decode w ≠ .ok (.proc n f)) → (∀ idx, decode w ≠ .ok (.cfgRd idx)) →
      (∀ sel idx, decode w ≠ .ok (.rdState sel idx)) → rspData r = 0)

/-! ## Sample processing -/

/-- R510: in a session PROC's ACT says whether `abs(noise) > THRESHOLD`, on exact integers; the
feedback sample does not matter. -/
def Obligations.GateOpensAboveTheThreshold : Prop :=
  ∀ (s : State) (noise fb : Int), s.mode = .running →
    ∃ t r, exec (.proc noise fb) s = .next t ∧ t.port = .busy r ∧ rspStatus r = 0 ∧
      (rspAct r = true ↔ (s.gate.extractLsb' 0 16).toNat < noise.natAbs)

/-- R542: with ADAPT = 0 a PROC below the threshold (inclusive) answers silence and changes nothing;
with ADAPT = 1 its output is still 0. -/
def Obligations.SilentSampleIsSilence : Prop :=
  ∀ (s : State) (noise fb : Int), s.mode = .running →
    noise.natAbs ≤ (s.gate.extractLsb' 0 16).toNat →
    (s.gate.getLsbD 16 = false → exec (.proc noise fb) s = .next { s with port := .busy 0 }) ∧
    (s.gate.getLsbD 16 = true → ∃ t r, exec (.proc noise fb) s = .next t ∧ t.port = .busy r ∧
      rspStatus r = 0 ∧ rspAct r = false ∧ rspOut r = 0)

/-- R610, with R530's response: in a PID session, on a sample that the variant runs on, PROC does
`pid_step` and answers its correction; nothing else changes. -/
def Obligations.ProcRunsThePidStep : Prop :=
  ∀ (s : State) (noise fb : Int), s.mode = .running → s.variant = .pid →
    ((s.gate.extractLsb' 0 16).toNat < noise.natAbs ∨ s.gate.getLsbD 16 = true) →
    let act := decide ((s.gate.extractLsb' 0 16).toNat < noise.natAbs)
    let e := f32Sub (i2f fb) (i2f noise)
    let p := f32Mul s.kp e
    let integral := f32Add s.integral (f32Mul s.ki e)
    let d := f32Mul s.kd (f32Sub e s.prevErr)
    let o := f32Add (f32Add p integral) d
    exec (.proc noise fb) s = .next
      { s with
        integral := integral, prevErr := e,
        port := .busy (o ++ ((0 : BitVec 8) ++ ((0 : BitVec 7) ++
          (BitVec.ofBool act ++ bits16 (if act then limit o else 0))))) }

/-- R710, with R530's response: in an LMS session, on a sample that the variant runs on, PROC shifts
the first N elements of D, forms the sum in index order from +0.0, and updates the first N taps; the
elements from N on and everything else stay. -/
def Obligations.ProcRunsTheLmsStep : Prop :=
  ∀ (s : State) (noise fb : Int), s.mode = .running → s.variant = .lms →
    ((s.gate.extractLsb' 0 16).toNat < noise.natAbs ∨ s.gate.getLsbD 16 = true) →
    s.len.toNat ≤ s.w.length → s.len.toNat ≤ s.d.length →
    let n := s.len.toNat
    let act := decide ((s.gate.extractLsb' 0 16).toNat < noise.natAbs)
    ∃ t : State,
      let acc := (List.range n).foldl
        (fun a i => f32Add a (f32Mul (s.w.getD i 0) (t.d.getD i 0))) 0x00000000
      let g := f32Mul s.mu (f32Sub (i2f fb) acc)
      exec (.proc noise fb) s = .next t ∧
      t = { s with
        w := t.w, d := t.d,
        port := .busy (acc ++ ((0 : BitVec 8) ++ ((0 : BitVec 7) ++
          (BitVec.ofBool act ++ bits16 (if act then limit acc else 0))))) } ∧
      t.w.length = s.w.length ∧ t.d.length = s.d.length ∧
      (0 < n → t.d[0]? = some (i2f noise)) ∧
      (∀ i, 0 < i → i < n → t.d[i]? = s.d[i - 1]?) ∧
      (∀ i, i < n → t.w[i]? = some (f32Add (s.w.getD i 0) (f32Mul g (t.d.getD i 0)))) ∧
      (∀ i, n ≤ i → t.w[i]? = s.w[i]? ∧ t.d[i]? = s.d[i]?)

/-- R810, with R530's response: in a DIRECT session, on a sample that the variant runs on, PROC
answers `GAIN * (fb - noise)`; no state changes. -/
def Obligations.ProcRunsTheDirectStep : Prop :=
  ∀ (s : State) (noise fb : Int), s.mode = .running → s.variant = .direct →
    ((s.gate.extractLsb' 0 16).toNat < noise.natAbs ∨ s.gate.getLsbD 16 = true) →
    let act := decide ((s.gate.extractLsb' 0 16).toNat < noise.natAbs)
    let c := f32Mul s.gain (f32Sub (i2f fb) (i2f noise))
    exec (.proc noise fb) s = .next
      { s with
        port := .busy (c ++ ((0 : BitVec 8) ++ ((0 : BitVec 7) ++
          (BitVec.ofBool act ++ bits16 (if act then limit c else 0))))) }

/-- The frame of PROC: whatever it answers, it leaves the mode, every configuration register and the
state of the variants not selected as they were, and of an LMS session the elements from N on
(10_state.md R136; 43_lms.md R700; 44_direct.md R800). -/
def Obligations.ProcTouchesItsVariantsStateOnly : Prop :=
  ∀ (s t : State) (noise fb : Int), exec (.proc noise fb) s = .next t →
    t = { s with w := t.w, d := t.d, integral := t.integral, prevErr := t.prevErr, port := t.port } ∧
    (s.variant ≠ .lms → t.w = s.w ∧ t.d = s.d) ∧
    (s.variant ≠ .pid → t.integral = s.integral ∧ t.prevErr = s.prevErr) ∧
    t.w.length = s.w.length ∧ t.d.length = s.d.length ∧
    t.w.drop s.len.toNat = s.w.drop s.len.toNat ∧ t.d.drop s.len.toNat = s.d.drop s.len.toNat

/-- R520 to R524: the limiter clamps, rounds half away from zero, negates and saturates, exactly.
`f32Scaled c` is the value of a finite `c` in units `u = 2^-149`; a correction `≥ 32766.5` gives
-32767, one `≤ -32766.5` gives +32767, any other gives the nearest integer negated, a tie going away
from zero; infinities go to their rail and NaN gives 0. -/
def Obligations.LimiterNegatesTheRoundedCorrection : Prop :=
  ∀ c : F32,
    let u : Int := 2 ^ 149
    let v := f32Scaled c
    (f32IsNaN c = true → limit c = 0) ∧
    (f32IsInf c = true → limit c = if f32Sign c then 32767 else -32767) ∧
    (f32IsFinite c = true →
      (65533 * u ≤ 2 * v → limit c = -32767) ∧
      (2 * v ≤ -(65533 * u) → limit c = 32767) ∧
      (2 * v < 65533 * u → -(65533 * u) < 2 * v →
        (2 * (limit c * u + v)).natAbs ≤ u.natAbs ∧
        ((2 * (limit c * u + v)).natAbs = u.natAbs → v.natAbs < (limit c * u).natAbs) ∧
        (0 < v → limit c ≤ 0) ∧ (v < 0 → 0 ≤ limit c)))

/-- OUT of every PROC response lies in -32767 to 32767 (41_sample.md R533). -/
def Obligations.OutputSampleStaysInRange : Prop :=
  ∀ (s t : State) (noise fb : Int) (r : Word64),
    exec (.proc noise fb) s = .next t → t.port = .busy r →
    -32767 ≤ (rspOut r).toInt ∧ (rspOut r).toInt ≤ 32767

/-- R540: PROC_NOIN answers silence and changes nothing, whatever GATE holds; with no session open it
is refused. -/
def Obligations.ProcNoinIsSilent : Prop :=
  encode .procNoin = 0x6000000000000000 ∧
  ∀ s : State,
    (s.mode = .running → exec .procNoin s = .next { s with port := .busy 0 }) ∧
    (s.mode = .idle → exec .procNoin s = .next { s with port := .busy 0x0000000002000000 })

/-- R850: RD_STATE answers the element that (SEL, IDX) names and changes nothing; an unmapped pair is
answered BAD_INDEX, and NOT_RUNNING comes first. -/
def Obligations.RdStateAnswersTheElement : Prop :=
  (∀ (sel : BitVec 4) (idx : BitVec 16), encode (.rdState sel idx) =
    (0x7 : BitVec 4) ++ (sel ++ ((0 : BitVec 8) ++ (idx ++ (0 : BitVec 32))))) ∧
  ∀ (s : State) (sel : BitVec 4) (idx : BitVec 16),
    let answer : F32 → Host.Outcome State Fault Refusal :=
      fun v => .next { s with port := .busy (v ++ (0 : BitVec 32)) }
    (s.mode = .idle →
      exec (.rdState sel idx) s = .next { s with port := .busy 0x0000000002000000 }) ∧
    (s.mode = .running →
      (∀ v, idx.toNat < s.len.toNat → s.w[idx.toNat]? = some v →
        exec (.rdState 0 idx) s = answer v) ∧
      (∀ v, idx.toNat < s.len.toNat → s.d[idx.toNat]? = some v →
        exec (.rdState 1 idx) s = answer v) ∧
      exec (.rdState 2 0) s = answer s.integral ∧
      exec (.rdState 3 0) s = answer s.prevErr ∧
      ((sel.toNat ≤ 1 ∧ s.len.toNat ≤ idx.toNat) ∨ ((sel = 2 ∨ sel = 3) ∧ idx ≠ 0) ∨
          4 ≤ sel.toNat →
        exec (.rdState sel idx) s = .next { s with port := .busy 0x0000000005000000 }))

/-- The frame of the commands that only answer: NOP, CFG_RD, RD_STATE and PROC_NOIN change no state,
and asked again they answer the same (20_memory.md R207; 41_sample.md R540). -/
def Obligations.ReadingCommandsChangeNothing : Prop :=
  ∀ (i : Instr) (s t : State),
    i = .nop ∨ (∃ idx, i = .cfgRd idx) ∨ (∃ sel idx, i = .rdState sel idx) ∨ i = .procNoin →
    exec i s = .next t → t = { s with port := t.port } ∧ exec i t = .next t

/-! ## Binary32 -/

/-- R21: an operation of R25 to R27 whose result is NaN returns `CANON_NAN`, whatever the payloads. -/
def Obligations.NanResultsAreCanonical : Prop :=
  ∀ x y : F32,
    (f32IsNaN (f32Add x y) = true → f32Add x y = 0x7FC00000) ∧
    (f32IsNaN (f32Sub x y) = true → f32Sub x y = 0x7FC00000) ∧
    (f32IsNaN (f32Mul x y) = true → f32Mul x y = 0x7FC00000) ∧
    (f32IsNaN x = true ∨ f32IsNaN y = true →
      f32Add x y = 0x7FC00000 ∧ f32Sub x y = 0x7FC00000 ∧ f32Mul x y = 0x7FC00000)

/-- R22: `i2f` of a Sample is the pattern whose value is that integer, and +0.0 for 0. -/
def Obligations.SampleConversionIsExact : Prop :=
  i2f 0 = 0x00000000 ∧
  ∀ i : Int, -32768 ≤ i → i ≤ 32767 →
    f32IsFinite (i2f i) = true ∧ f32Scaled (i2f i) = i * 2 ^ 149 ∧ i2f i ≠ 0x80000000

/-- R601, and the exactness R604 rests on: the difference of two integers of magnitude at most 65535
(two Samples, or two earlier differences) is exact, and is +0.0, never -0.0, when they are equal. -/
def Obligations.IntegerDifferencesAreExact : Prop :=
  ∀ m n : Int, m.natAbs ≤ 65535 → n.natAbs ≤ 65535 →
    f32Sub (i2f m) (i2f n) = i2f (m - n) ∧ f32IsFinite (i2f (m - n)) = true ∧
    f32Scaled (i2f (m - n)) = (m - n) * 2 ^ 149 ∧ i2f (m - n) ≠ 0x80000000 ∧
    (m = n → f32Sub (i2f m) (i2f n) = 0x00000000)

/-- A nonzero sum or difference of two finite values is the exact one, rounded once by R24: no binary32
value is nearer, ties go to the even one, and it is infinite exactly from 2^128 - 2^103 on (00_scope.md
R24, R25, R26). -/
def Obligations.SumAndDifferenceAreCorrectlyRounded : Prop :=
  ∀ x y : F32, f32IsFinite x = true → f32IsFinite y = true →
    (f32Scaled x + f32Scaled y ≠ 0 →
      correctlyRounded (f32Scaled x + f32Scaled y) 1 (f32Add x y)) ∧
    (f32Scaled x - f32Scaled y ≠ 0 →
      correctlyRounded (f32Scaled x - f32Scaled y) 1 (f32Sub x y))

/-- A nonzero product of two finite values is the exact product, rounded once by R24 (00_scope.md
R24, R27). Products of scaled values are in units of 2^-149 * 2^-149. -/
def Obligations.ProductIsCorrectlyRounded : Prop :=
  ∀ x y : F32, f32IsFinite x = true → f32IsFinite y = true → f32Scaled x * f32Scaled y ≠ 0 →
    correctlyRounded (f32Scaled x * f32Scaled y) (2 ^ 149) (f32Mul x y)

/-- The cases of R25, R26 and R27 that are not rounded: infinities, exact zero sums and differences, and
zero products, with their signs. -/
def Obligations.InfinitiesAndZerosFollowTheRules : Prop :=
  (∀ x y : F32, f32IsInf x = true → f32IsInf y = true → f32Sign x ≠ f32Sign y →
    f32Add x y = 0x7FC00000) ∧
  (∀ x y : F32, f32IsInf x = true → f32IsInf y = true → f32Sign x = f32Sign y →
    f32Add x y = x) ∧
  (∀ x y : F32, f32IsInf x = true → f32IsFinite y = true → f32Add x y = x ∧ f32Add y x = x) ∧
  (∀ x y : F32, f32IsFinite x = true → f32IsFinite y = true → f32Scaled x + f32Scaled y = 0 →
    f32Add x y = if x = 0x80000000 ∧ y = 0x80000000 then 0x80000000 else 0x00000000) ∧
  (∀ x y : F32, f32IsInf x = true → f32IsInf y = true → f32Sign x = f32Sign y →
    f32Sub x y = 0x7FC00000) ∧
  (∀ x y : F32, f32IsInf x = true → f32IsInf y = true → f32Sign x ≠ f32Sign y →
    f32Sub x y = x) ∧
  (∀ x y : F32, f32IsInf x = true → f32IsFinite y = true →
    f32Sub x y = x ∧ f32Sub y x = (if f32Sign x = true then 0x7F800000 else 0xFF800000)) ∧
  (∀ x y : F32, f32IsFinite x = true → f32IsFinite y = true → f32Scaled x - f32Scaled y = 0 →
    f32Sub x y = if x = 0x80000000 ∧ y = 0x00000000 then 0x80000000 else 0x00000000) ∧
  (∀ x y : F32, f32IsInf x = true → f32IsZero y = true →
    f32Mul x y = 0x7FC00000 ∧ f32Mul y x = 0x7FC00000) ∧
  (∀ x y : F32, f32IsInf x = true → f32IsNaN y = false → f32IsZero y = false →
    f32Mul x y = (if f32Sign x = f32Sign y then 0x7F800000 else 0xFF800000) ∧
    f32Mul y x = (if f32Sign x = f32Sign y then 0x7F800000 else 0xFF800000)) ∧
  (∀ x y : F32, f32IsZero x = true → f32IsFinite y = true →
    f32Mul x y = (if f32Sign x = f32Sign y then 0x00000000 else 0x80000000) ∧
    f32Mul y x = (if f32Sign x = f32Sign y then 0x00000000 else 0x80000000))

/-- R29: the source's default literals, rounded by R24. -/
def Obligations.DefaultLiteralsRoundAsGiven : Prop :=
  rne false 25 100 = 0x3E800000 ∧ rne false 5 100 = 0x3D4CCCCD ∧ rne false 1 1000 = 0x3A83126F ∧
  rne false 1 1 = 0x3F800000 ∧ rne false 2 1 = 0x40000000 ∧
  f32Scaled 0x00000000 = 0 ∧ 4 * f32Scaled 0x3E800000 = 2 ^ 149 ∧
  10 ^ 28 * f32Scaled 0x3D4CCCCD = 500000007450580596923828125 * 2 ^ 149 ∧
  10 ^ 33 * f32Scaled 0x3A83126F = 1000000047497451305389404296875 * 2 ^ 149

/-! ## Invariants -/

/-- The reset state, for every NMAX, meets the invariant. -/
def Obligations.ResetStateMeetsTheInvariant : Prop :=
  (∀ n : Nat, 128 ≤ n → n ≤ 65535 → (State.resetOf n).Inv) ∧ State.reset.Inv

/-- Every step keeps the invariant: the arrays keep their NMAX elements, every register stays legal
(10_state.md R110), the delay line holds Samples (R131), PREVERR an integer of magnitude at most 65535
(R133), no tap is -0.0 (43_lms.md R712), the state that a session does not use stays +0.0 (10_state.md
R136; 45_readback.md R852), and a response held is a legal one. -/
def Obligations.EveryStepKeepsTheInvariant : Prop :=
  ∀ s t : State, s.Inv → step s = .next t → t.Inv

/-- Filter state that no command can read never shows: two states that differ at most there take every
edge to two such states, with the same mode, configuration and ports (10_state.md R130, R134; 45_readback.md
R852; 93_implementation_defined.md I15, I16). -/
def Obligations.UnreadableFilterStateNeverShows : Prop :=
  ∀ s t s' t' : State, sameVisible s t → step s = .next s' → step t = .next t' → sameVisible s' t'

/-! ## Frame processor and assembler -/

/-- R901, R902, R904: a `process` call issues one command per frame in index order, PROC of the two
configured channels of an interleaved buffer or PROC_NOIN, and spreads each response's Sample, or
silence for one that is not OK, over the output channels. -/
def Obligations.ProcessCallIsItsCommandSequence : Prop :=
  ∀ (count : Nat) (input : Option (List Int)) (s : State), inputOk s.chan count input = true →
    let inCh := (s.chan.extractLsb' 0 8).toNat
    let outCh := (s.chan.extractLsb' 8 8).toNat
    let noiseCh := (s.chan.extractLsb' 16 8).toNat
    let fbCh := (s.chan.extractLsb' 24 8).toNat
    let word : Nat → Word64 := fun i =>
      match input with
      | none => 0x6000000000000000
      | some buf => (0x50000000 : BitVec 32) ++
          (BitVec.ofInt 16 (buf.getD (i * inCh + noiseCh) 0) ++
            BitVec.ofInt 16 (buf.getD (i * inCh + fbCh) 0))
    ∃ t rs, transactAll ((List.range count).map word) s = some (t, rs) ∧ rs.length = count ∧
      processFrame count input s = some
        ⟨t, rs.flatMap fun r =>
          List.replicate outCh (if rspStatus r = 0 then (rspOut r).toInt else 0), .cont⟩

/-- R903, R905: a `process` call writes every position of its output buffer of `frameCount * OUT_CH`
Samples: position `i*OUT_CH + c` with the one Sample of frame `i`, the same for every channel `c`, which
is the OUT of that frame's response, or 0 when the response is not OK. The first clause says the same of
any list of Samples spread over channels. -/
def Obligations.EveryOutputChannelGetsTheFramesSample : Prop :=
  (∀ (outCh : Nat) (samples : List Int),
    (broadcast outCh samples).length = samples.length * outCh ∧
    ∀ i c, i < samples.length → c < outCh →
      (broadcast outCh samples)[i * outCh + c]? = samples[i]?) ∧
  ∀ (count : Nat) (input : Option (List Int)) (s : State), inputOk s.chan count input = true →
    let outCh := (s.chan.extractLsb' 8 8).toNat
    ∃ t rs out, transactAll ((frameInstrs s.chan count input).map encode) s = some (t, rs) ∧
      processFrame count input s = some ⟨t, out, .cont⟩ ∧
      rs.length = count ∧ out.length = count * outCh ∧
      ∀ i c, i < count → c < outCh →
        out[i * outCh + c]? =
          rs[i]?.map fun r => if rspStatus r = 0 then (rspOut r).toInt else 0

/-- R904: when the input is absent every frame is PROC_NOIN, the whole output buffer is 0 and no state
changes, session or not. -/
def Obligations.AbsentInputGivesSilence : Prop :=
  ∀ (count : Nat) (s : State), s.port = .ready →
    frameInstrs s.chan count none = List.replicate count .procNoin ∧
    processFrame count none s =
      some ⟨s, List.replicate (count * (s.chan.extractLsb' 8 8).toNat) 0, .cont⟩

/-- A call that feeds only zero samples outputs only zeros and, with ADAPT = 0, leaves the state as it
was (46_frame.md R908, the source's idempotence of silence; 41_sample.md R512). -/
def Obligations.ZeroSamplesGiveZeros : Prop :=
  ∀ (count : Nat) (s : State), s.port = .ready →
    ∃ t, processFrame count
        (some (List.replicate (count * (s.chan.extractLsb' 0 8).toNat) 0)) s =
        some ⟨t, List.replicate (count * (s.chan.extractLsb' 8 8).toNat) 0, .cont⟩ ∧
      (s.gate.getLsbD 16 = false → t = s)

/-- R342: each pseudo-command expands to its commands. -/
def Obligations.PseudoCommandsExpandAsGiven : Prop :=
  ∀ env : AsmEnv,
    (∀ (reg num den : Nat) (neg : Bool), reg ≤ 65535 →
      expandLine env (.cfgWrf reg ⟨neg, 0, den⟩) = some [.cfgWr (BitVec.ofNat 16 reg) 0x00000000] ∧
      (0 < num → expandLine env (.cfgWrf reg ⟨neg, num, den⟩) =
        some [.cfgWr (BitVec.ofNat 16 reg) (rne neg num den)])) ∧
    expandLine env (.cfgWrf 8 ⟨false, 1, 1000⟩) = some [.cfgWr 0x0008 0x3A83126F] ∧
    expandLine env (.setVariant .pid) = some [.cfgWr 0x0003 0] ∧
    expandLine env (.setVariant .lms) = some [.cfgWr 0x0003 1] ∧
    expandLine env (.setVariant .direct) = some [.cfgWr 0x0003 2] ∧
    (∀ thr, thr ≤ 65535 →
      expandLine env (.setGate thr false) = some [.cfgWr 0x0004 (BitVec.ofNat 32 thr)] ∧
      expandLine env (.setGate thr true) = some [.cfgWr 0x0004 (BitVec.ofNat 32 (thr + 0x10000))]) ∧
    (∀ i o n f, i ≤ 255 → o ≤ 255 → n ≤ 255 → f ≤ 255 → expandLine env (.setChan i o n f) =
      some [.cfgWr 0x000B (BitVec.ofNat 32 (i + o * 2 ^ 8 + n * 2 ^ 16 + f * 2 ^ 24))]) ∧
    (∀ i, i ≤ 65535 →
      expandLine env (.rdW i) = some [.rdState 0 (BitVec.ofNat 16 i)] ∧
      expandLine env (.rdD i) = some [.rdState 1 (BitVec.ofNat 16 i)]) ∧
    (∀ count, expandLine env (.frame count true) = some (List.replicate count .procNoin)) ∧
    (∀ count, inputOk env.chan count (some env.input) = true →
      expandLine env (.frame count false) = some ((List.range count).map fun i =>
        let inCh := (env.chan.extractLsb' 0 8).toNat
        .proc (env.input.getD (i * inCh + (env.chan.extractLsb' 16 8).toNat) 0)
          (env.input.getD (i * inCh + (env.chan.extractLsb' 24 8).toNat) 0)))

/-- Every line of 30_encoding.md R340, and every pseudo-command of R342 with numeric operands but FRAME,
gives the one command written, or, with an operand outside its range, is an assembly error. That the
four fields of SET_CHAN end at 255 is the model's reading of R342 (log entry 11). -/
def Obligations.OperandOutOfRangeIsAnError : Prop :=
  ∀ (env : AsmEnv) (reg value sel index thr : Nat) (noise fb : Int) (adapt neg : Bool)
    (num den i o n f : Nat),
    expandLine env .nop = some [.nop] ∧
    expandLine env .start = some [.start] ∧
    expandLine env .stop = some [.stop] ∧
    expandLine env .procNoin = some [.procNoin] ∧
    expandLine env (.cfgRd reg) =
      (if reg < 2 ^ 16 then some [.cfgRd (BitVec.ofNat 16 reg)] else none) ∧
    expandLine env (.cfgWr reg value) =
      (if reg < 2 ^ 16 ∧ value < 2 ^ 32 then
        some [.cfgWr (BitVec.ofNat 16 reg) (BitVec.ofNat 32 value)] else none) ∧
    expandLine env (.proc noise fb) =
      (if (-32768 ≤ noise ∧ noise ≤ 32767) ∧ -32768 ≤ fb ∧ fb ≤ 32767 then
        some [.proc noise fb] else none) ∧
    expandLine env (.rdState sel index) =
      (if sel < 2 ^ 4 ∧ index < 2 ^ 16 then
        some [.rdState (BitVec.ofNat 4 sel) (BitVec.ofNat 16 index)] else none) ∧
    expandLine env (.cfgWrf reg ⟨neg, num, den⟩) =
      (if reg < 2 ^ 16 then
        some [.cfgWr (BitVec.ofNat 16 reg) (if num = 0 then 0x00000000 else rne neg num den)]
        else none) ∧
    expandLine env (.setGate thr adapt) =
      (if thr < 2 ^ 16 then
        some [.cfgWr 0x0004 (BitVec.ofNat 32 (thr + if adapt then 0x10000 else 0))] else none) ∧
    expandLine env (.rdW index) =
      (if index < 2 ^ 16 then some [.rdState 0 (BitVec.ofNat 16 index)] else none) ∧
    expandLine env (.rdD index) =
      (if index < 2 ^ 16 then some [.rdState 1 (BitVec.ofNat 16 index)] else none) ∧
    expandLine env (.setChan i o n f) =
      (if i < 2 ^ 8 ∧ o < 2 ^ 8 ∧ n < 2 ^ 8 ∧ f < 2 ^ 8 then
        some [.cfgWr 0x000B (BitVec.ofNat 32 (i + o * 2 ^ 8 + n * 2 ^ 16 + f * 2 ^ 24))]
        else none)

/-! ## The handshake completes -/

/-- One edge of the handshake without reset (30_encoding.md R301 to R303): an accepted word is in
flight with its response not offered yet, since LAT is at least 1 (00_scope.md R12); the response is
offered at the edge whose `done` bit is set, and waits at one whose bit is not; it is gone once taken,
and the core is ready. That the bit `done` says when the latency is over is the model's choice (log
entry 4). -/
def Obligations.HandshakePhaseFollowsTheEdge : Prop :=
  ∀ (s : State) (e : Edge) (rest : List Edge) (r : Word64), s.edges = e :: rest → e.rst = false →
    (s.port = .ready → e.cmdValid = true →
      ∃ t q, step s = .next t ∧ acceptedWord s = some e.cmdData ∧ t.port = .busy q ∧
        rspOffered t = none ∧ rspPending t = some q ∧ cmdReady t = false) ∧
    (s.port = .busy r → e.done = true →
      step s = .next { s with port := .offering r, edges := rest }) ∧
    (s.port = .busy r → e.done = false → step s = .next { s with edges := rest }) ∧
    (s.port = .offering r → e.rspReady = true →
      takenWord s = some r ∧ step s = .next { s with port := .ready, edges := rest }) ∧
    (s.port = .offering r → e.rspReady = false →
      takenWord s = none ∧ step s = .next { s with edges := rest })

/-- Every accepted word gets its response: from the edge that accepts it, the core holds the response
that `transact` gives, not offered, for as many edges as have `done` clear, and offers it right after
the first edge with `done` set, so that the latency is any number of edges from 1 (30_encoding.md R302,
00_scope.md R12). That the bit `done` says when the latency is over is the model's choice (log
entry 4). -/
def Obligations.ResponseIsOfferedAfterItsLatency : Prop :=
  ∀ (s : State) (e d : Edge) (wait rest : List Edge),
    s.port = .ready → s.edges = e :: (wait ++ d :: rest) → e.rst = false → e.cmdValid = true →
    (∀ x ∈ wait, x.rst = false ∧ x.done = false) → d.rst = false → d.done = true →
    ∃ t r, transact e.cmdData s = some (t, r) ∧
      (∀ k, k ≤ wait.length → runEdges (k + 1) s =
        some ({ t with port := .busy r, edges := (wait ++ d :: rest).drop k }, [e.cmdData], [])) ∧
      runEdges (wait.length + 2) s =
        some ({ t with port := .offering r, edges := rest }, [e.cmdData], [])

/-- R302: every accepted command is answered: where no listed edge resets the core, a response owed is
offered after some number of edges, at least one, with nothing else changed but the edges past; and from
the edge that accepts a word, the response offered is the one `transact` gives. No bound on the number is
claimed: when the wait ends is the model's choice (log entry 4), that it ends is the rule's. -/
def Obligations.EveryAcceptedCommandIsAnswered : Prop :=
  ∀ s : State, (∀ e ∈ s.edges, e.rst = false) →
    (∀ r, s.port = .busy r → ∃ k, 1 ≤ k ∧
      runEdges k s = some ({ s with port := .offering r, edges := s.edges.drop k }, [], [])) ∧
    (∀ w, acceptedWord s = some w → ∃ t r k, transact w s = some (t, r) ∧
      2 ≤ k ∧
      runEdges k s = some ({ t with port := .offering r, edges := s.edges.drop k }, [w], []))
end

