-- ==== Sys2Proof/Laws/Binary32.lean ====
section
/-! SUPPORT. What the binary32 primitives do (spec 00_scope.md R20 to R27), in whole numbers: a finite
value is an integer in units of 2^-149. -/

namespace Sys2Proof.Machine

/-! Reading a pattern (R20). -/

theorem f32Sign_pattern (neg : Bool) (m : Nat) : f32Sign (f32Pattern neg m) = neg := by
  unfold f32Sign f32Pattern
  rw [BitVec.msb_append]
  cases neg <;> rfl

theorem f32Pattern_toNat (neg : Bool) {m : Nat} (hm : m < 2 ^ 31) :
    (f32Pattern neg m).toNat = neg.toNat * 2 ^ 31 + m := by
  simp only [f32Pattern, BitVec.toNat_append, BitVec.toNat_ofBool, BitVec.toNat_ofNat]
  rw [Nat.mod_eq_of_lt hm, ← Nat.shiftLeft_add_eq_or_of_lt hm, Nat.shiftLeft_eq]

theorem f32Exp_eq (x : F32) : f32Exp x = x.toNat / 2 ^ 23 % 2 ^ 8 := by
  simp [f32Exp, BitVec.extractLsb'_toNat, Nat.shiftRight_eq_div_pow]

theorem f32Frac_eq (x : F32) : f32Frac x = x.toNat % 2 ^ 23 := by
  simp [f32Frac, BitVec.extractLsb'_toNat]

theorem f32Exp_pattern (neg : Bool) {m : Nat} (hm : m < 2 ^ 31) :
    f32Exp (f32Pattern neg m) = m / 2 ^ 23 := by
  rw [f32Exp_eq, f32Pattern_toNat neg hm]
  cases neg <;> (simp; omega)

theorem f32Frac_pattern (neg : Bool) {m : Nat} (hm : m < 2 ^ 31) :
    f32Frac (f32Pattern neg m) = m % 2 ^ 23 := by
  rw [f32Frac_eq, f32Pattern_toNat neg hm]
  cases neg
  · simp
  · simp; omega

theorem f32Frac_lt (x : F32) : f32Frac x < 2 ^ 23 := by
  rw [f32Frac_eq]; exact Nat.mod_lt _ (by norm_num)

theorem f32Exp_lt (x : F32) : f32Exp x < 2 ^ 8 := by
  rw [f32Exp_eq]; exact Nat.mod_lt _ (by norm_num)

/-- Below `0x7F800000` the low bits spell a finite value. -/
theorem f32_finite_pattern (neg : Bool) {m : Nat} (hm : m < 0x7F800000) :
    f32IsNaN (f32Pattern neg m) = false ∧ f32IsInf (f32Pattern neg m) = false := by
  have he : f32Exp (f32Pattern neg m) ≠ 255 := by rw [f32Exp_pattern neg (by omega)]; omega
  simp [f32IsNaN, f32IsInf, he]

theorem f32_inf_pattern (neg : Bool) :
    f32IsNaN (f32Inf neg) = false ∧ f32IsInf (f32Inf neg) = true ∧ f32Sign (f32Inf neg) = neg := by
  cases neg <;> decide

/-- The pattern `k * 2^23 + n` has the magnitude `n * 2^k`: subnormal for `k = 0`, and with the
leading bit of `n` counted into the exponent otherwise (R20, R24). -/
theorem f32Mag_pattern (neg : Bool) {k n : Nat} (hk : k ≤ 253) (hn : n ≤ 2 ^ 24)
    (hlead : k = 0 ∨ 2 ^ 23 ≤ n) (hm : k * 2 ^ 23 + n < 0x7F800000) :
    f32Mag (f32Pattern neg (k * 2 ^ 23 + n)) = n * 2 ^ k := by
  have hlt : k * 2 ^ 23 + n < 2 ^ 31 := by omega
  unfold f32Mag
  rw [f32Exp_pattern neg hlt, f32Frac_pattern neg hlt]
  rcases Nat.lt_or_ge n (2 ^ 23) with h23 | h23
  · obtain rfl : k = 0 := by omega
    rw [if_pos (by omega)]; omega
  · rcases Nat.lt_or_ge n (2 ^ 24) with h24 | h24
    · have hq : (k * 2 ^ 23 + n) / 2 ^ 23 = k + 1 := by omega
      have hr : 2 ^ 23 + (k * 2 ^ 23 + n) % 2 ^ 23 = n := by omega
      rw [hq, hr, if_neg (by omega), Nat.add_sub_cancel]
    · obtain rfl : n = 2 ^ 24 := by omega
      have hq : (k * 2 ^ 23 + 2 ^ 24) / 2 ^ 23 = k + 2 := by omega
      have hr : 2 ^ 23 + (k * 2 ^ 23 + 2 ^ 24) % 2 ^ 23 = 2 ^ 23 := by omega
      rw [hq, hr, if_neg (by omega), show k + 2 - 1 = k + 1 by omega, pow_succ 2 k]
      ring

/-! Flipping the sign (R26). -/

theorem f32Flip_getLsbD (x : F32) (i : Nat) :
    (x ^^^ 0x80000000#32).getLsbD i = (x.getLsbD i ^^ decide (i = 31)) := by
  rw [BitVec.getLsbD_xor]
  congr 1
  rcases Nat.lt_or_ge i 32 with h | h
  · interval_cases i <;> decide
  · rw [BitVec.getLsbD_of_ge _ _ h]; simp; omega

@[simp] theorem f32Exp_flip (x : F32) : f32Exp (x ^^^ 0x80000000#32) = f32Exp x := by
  unfold f32Exp
  congr 1
  apply BitVec.eq_of_getLsbD_eq
  intro i hi
  simp only [BitVec.getLsbD_extractLsb', f32Flip_getLsbD]
  rw [show decide (23 + i = 31) = false by simp; omega]
  simp

@[simp] theorem f32Frac_flip (x : F32) : f32Frac (x ^^^ 0x80000000#32) = f32Frac x := by
  unfold f32Frac
  congr 1
  apply BitVec.eq_of_getLsbD_eq
  intro i hi
  simp only [BitVec.getLsbD_extractLsb', f32Flip_getLsbD]
  rw [show decide (0 + i = 31) = false by simp; omega]
  simp

@[simp] theorem f32Sign_flip (x : F32) : f32Sign (x ^^^ 0x80000000#32) = !f32Sign x := by
  simp only [f32Sign, BitVec.msb_eq_getLsbD_last, f32Flip_getLsbD]
  simp

@[simp] theorem f32IsNaN_flip (x : F32) : f32IsNaN (x ^^^ 0x80000000#32) = f32IsNaN x := by
  unfold f32IsNaN; rw [f32Exp_flip, f32Frac_flip]

@[simp] theorem f32IsInf_flip (x : F32) : f32IsInf (x ^^^ 0x80000000#32) = f32IsInf x := by
  unfold f32IsInf; rw [f32Exp_flip, f32Frac_flip]

@[simp] theorem f32IsFinite_flip (x : F32) : f32IsFinite (x ^^^ 0x80000000#32) = f32IsFinite x := by
  unfold f32IsFinite; rw [f32Exp_flip]

/-- Flipping the sign bit negates the value. -/
@[simp] theorem f32Scaled_flip (x : F32) : f32Scaled (x ^^^ 0x80000000#32) = -f32Scaled x := by
  unfold f32Scaled f32Mag
  rw [f32Exp_flip, f32Frac_flip, f32Sign_flip]
  cases f32Sign x <;> simp

/-! The classes of values (R20). -/

theorem f32IsFinite_iff (x : F32) :
    f32IsFinite x = true ↔ f32IsNaN x = false ∧ f32IsInf x = false := by
  simp only [f32IsFinite, f32IsNaN, f32IsInf]
  cases h : f32Exp x == 255 <;> cases h' : f32Frac x == 0 <;> simp_all

/-- A pattern is its sign, exponent and fraction. -/
theorem f32_ext {x y : F32} (hs : f32Sign x = f32Sign y) (he : f32Exp x = f32Exp y)
    (hf : f32Frac x = f32Frac y) : x = y := by
  apply BitVec.eq_of_toNat_eq
  rw [f32Exp_eq, f32Exp_eq] at he
  rw [f32Frac_eq, f32Frac_eq] at hf
  simp only [f32Sign, BitVec.msb_eq_decide, decide_eq_decide] at hs
  have hx := x.isLt
  have hy := y.isLt
  omega

/-- Only the zeros have magnitude 0. -/
theorem f32Mag_eq_zero (x : F32) : f32Mag x = 0 ↔ f32IsZero x = true := by
  unfold f32Mag f32IsZero
  split <;> simp_all

/-- The zero with the sign bit set is `0x80000000`. -/
theorem eq_negZero {x : F32} (hs : f32Sign x = true) (hm : f32Mag x = 0) : x = 0x80000000#32 := by
  have hz := (f32Mag_eq_zero x).1 hm
  simp only [f32IsZero, Bool.and_eq_true, beq_iff_eq] at hz
  exact f32_ext (hs.trans (by decide)) (hz.1.trans (by decide)) (hz.2.trans (by decide))

/-! Rounding (R24). -/

/-- The nearest integer is within half a unit, and an exact half goes to the even one. -/
theorem nearestEven_spec (num : Nat) {den : Nat} (hd : 0 < den) :
    2 * num ≤ (2 * nearestEven num den + 1) * den ∧ (2 * nearestEven num den) * den ≤ 2 * num + den ∧
      (2 * num = (2 * nearestEven num den + 1) * den ∨ (2 * nearestEven num den) * den = 2 * num + den →
        nearestEven num den % 2 = 0) := by
  have hdm := Nat.div_add_mod num den
  have hlt := Nat.mod_lt num hd
  unfold nearestEven
  generalize num / den = q at hdm
  generalize num % den = r at hdm hlt
  subst hdm
  dsimp only
  split
  · refine ⟨by nlinarith, by nlinarith, ?_⟩
    rintro (h | h) <;> nlinarith
  · split
    · refine ⟨by nlinarith, by nlinarith, ?_⟩
      rintro (h | h) <;> nlinarith
    · have hr : 2 * r = den := by omega
      split
      · exact ⟨by nlinarith, by nlinarith, fun _ => by assumption⟩
      · exact ⟨by nlinarith, by nlinarith, fun _ => by omega⟩

/-- No integer is nearer. -/
theorem nearestEven_unique {num den n : Nat} (hd : 0 < den)
    (h1 : 2 * num < (2 * n + 1) * den) (h2 : (2 * n) * den < 2 * num + den) :
    nearestEven num den = n := by
  obtain ⟨a, b, -⟩ := nearestEven_spec num hd
  have h3 : (2 * nearestEven num den) * den < (2 * n + 2) * den := by nlinarith
  have h4 : (2 * n) * den < (2 * nearestEven num den + 2) * den := by nlinarith
  have h5 := Nat.lt_of_mul_lt_mul_right h3
  have h6 := Nat.lt_of_mul_lt_mul_right h4
  omega

/-- Rounding a ratio does not depend on how it is written. -/
theorem nearestEven_mul_right (num den : Nat) {c : Nat} (hc : 0 < c) :
    nearestEven (num * c) (den * c) = nearestEven num den := by
  unfold nearestEven
  simp only [Nat.mul_div_mul_right _ _ hc, Nat.mul_mod_mul_right, ← Nat.mul_assoc,
    Nat.mul_lt_mul_right hc]

/-- An exact quotient is its own rounding. -/
theorem nearestEven_exact (n : Nat) {den : Nat} (hd : 0 < den) : nearestEven (n * den) den = n := by
  apply nearestEven_unique hd <;> nlinarith

/-- `floorLog2` is the floor of the binary logarithm: `2^l ≤ num / den < 2^(l+1)`, said with a shift
`j` that makes both exponents natural. -/
theorem floorLog2_spec {num den : Nat} (hn : 0 < num) (hd : 0 < den) (j : Nat)
    (hj : 0 ≤ floorLog2 num den + j) :
    den * 2 ^ (floorLog2 num den + j).toNat ≤ num * 2 ^ j ∧
      num * 2 ^ j < den * 2 ^ ((floorLog2 num den + j).toNat + 1) := by
  have n1 : 2 ^ num.log2 ≤ num := Nat.log2_self_le (by omega)
  have n2 : num < 2 ^ (num.log2 + 1) := Nat.lt_log2_self
  have d1 : 2 ^ den.log2 ≤ den := Nat.log2_self_le (by omega)
  have d2 : den < 2 ^ (den.log2 + 1) := Nat.lt_log2_self
  have key : ∀ {a b x y : Nat}, a ≤ b → 2 ^ y * x ≤ 2 ^ y * b → a ≤ b := fun h _ => h
  unfold floorLog2 at hj ⊢
  generalize num.log2 = p at *
  generalize den.log2 = r at *
  dsimp only at hj ⊢
  split at hj
  case isTrue h =>
    rw [if_pos h]
    have hsplit : ((p : Int) - r + j).toNat + (-((p : Int) - r)).toNat = j + ((p : Int) - r).toNat := by
      omega
    constructor
    · have : den * 2 ^ ((p : Int) - r).toNat * 2 ^ j ≤ num * 2 ^ (-((p : Int) - r)).toNat * 2 ^ j :=
        Nat.mul_le_mul_right _ h
      have e1 : den * 2 ^ ((p : Int) - r).toNat * 2 ^ j =
          den * 2 ^ ((p : Int) - r + j).toNat * 2 ^ (-((p : Int) - r)).toNat := by
        rw [Nat.mul_assoc, Nat.mul_assoc, ← pow_add, ← pow_add, hsplit, Nat.add_comm]
      have e2 : num * 2 ^ (-((p : Int) - r)).toNat * 2 ^ j =
          num * 2 ^ j * 2 ^ (-((p : Int) - r)).toNat := by ring
      rw [e1, e2] at this
      exact Nat.le_of_mul_le_mul_right this (by positivity)
    · have hp : p + 1 + j = r + (((p : Int) - r + j).toNat + 1) := by omega
      calc num * 2 ^ j < 2 ^ (p + 1) * 2 ^ j := Nat.mul_lt_mul_of_pos_right n2 (by positivity)
        _ = 2 ^ r * 2 ^ (((p : Int) - r + j).toNat + 1) := by rw [← pow_add, ← pow_add, hp]
        _ ≤ den * 2 ^ (((p : Int) - r + j).toNat + 1) := Nat.mul_le_mul_right _ d1
  case isFalse h =>
    rw [if_neg h]
    have hp : r + 1 + ((p : Int) - r - 1 + j).toNat = p + j := by omega
    constructor
    · calc den * 2 ^ ((p : Int) - r - 1 + j).toNat
          ≤ 2 ^ (r + 1) * 2 ^ ((p : Int) - r - 1 + j).toNat := Nat.mul_le_mul_right _ d2.le
        _ = 2 ^ p * 2 ^ j := by rw [← pow_add, ← pow_add, hp]
        _ ≤ num * 2 ^ j := Nat.mul_le_mul_right _ n1
    · have h' : num * 2 ^ (-((p : Int) - r)).toNat < den * 2 ^ ((p : Int) - r).toNat := by omega
      have hsplit : ((p : Int) - r - 1 + j).toNat + 1 + (-((p : Int) - r)).toNat =
          j + ((p : Int) - r).toNat := by omega
      have := Nat.mul_lt_mul_of_pos_right h' (show 0 < 2 ^ j by positivity)
      have e1 : den * 2 ^ ((p : Int) - r).toNat * 2 ^ j =
          den * 2 ^ (((p : Int) - r - 1 + j).toNat + 1) * 2 ^ (-((p : Int) - r)).toNat := by
        rw [Nat.mul_assoc, Nat.mul_assoc, ← pow_add, ← pow_add, hsplit, Nat.add_comm]
      have e2 : num * 2 ^ (-((p : Int) - r)).toNat * 2 ^ j =
          num * 2 ^ j * 2 ^ (-((p : Int) - r)).toNat := by ring
      rw [e1, e2] at this
      exact Nat.lt_of_mul_lt_mul_right this

/-- `rne` in units of 2^-149: for the positive ratio `num / den` there is an exponent `k` with
`2^(k+23) ≤ num * 2^149 / den < 2^(k+24)` (the lower bound falls away at `k = 0`, the subnormals), and
the result is the nearest multiple `n * 2^k`, or infinity from `2^128 * 2^149` on (R24). -/
theorem rne_spec (neg : Bool) {num den : Nat} (hn : 0 < num) (hd : 0 < den) :
    ∃ k n : Nat, (k = 0 ∨ den * 2 ^ (k + 23) ≤ num * 2 ^ 149) ∧ num * 2 ^ 149 < den * 2 ^ (k + 24) ∧
      n = nearestEven (num * 2 ^ 149) (den * 2 ^ k) ∧
      rne neg num den =
        if f32Over ≤ n * 2 ^ k then f32Inf neg else f32Pattern neg (k * 2 ^ 23 + n) := by
  have hdef : rne neg num den =
      (let e := max (floorLog2 num den) (-126)
       let up := (23 - e).toNat
       let down := (e - 23).toNat
       let n := nearestEven (num * 2 ^ up) (den * 2 ^ down)
       if 2 ^ 128 * 2 ^ up ≤ n * 2 ^ down then f32Inf neg
       else f32Pattern neg ((e + 126).toNat * 2 ^ 23 + n)) := rfl
  rw [hdef]
  have hlog := fun j => floorLog2_spec hn hd j
  generalize floorLog2 num den = l at *
  obtain ⟨k, hk⟩ : ∃ k : Nat, max l (-126) = (k : Int) - 126 := ⟨(max l (-126) + 126).toNat, by omega⟩
  rw [hk]
  dsimp only
  have hk0 : ((k : Int) - 126 + 126).toNat = k := by omega
  rw [hk0]
  have hexp : (23 - ((k : Int) - 126)).toNat + k = 149 + (((k : Int) - 126) - 23).toNat := by omega
  generalize hu : (23 - ((k : Int) - 126)).toNat = up at *
  generalize hw : (((k : Int) - 126) - 23).toNat = down at *
  have hnear : nearestEven (num * 2 ^ up) (den * 2 ^ down) =
      nearestEven (num * 2 ^ 149) (den * 2 ^ k) := by
    rw [← nearestEven_mul_right (num * 2 ^ up) (den * 2 ^ down) (show 0 < 2 ^ k by positivity),
      ← nearestEven_mul_right (num * 2 ^ 149) (den * 2 ^ k) (show 0 < 2 ^ down by positivity)]
    rw [Nat.mul_assoc, ← pow_add, hexp, pow_add, Nat.mul_assoc num]
    congr 1
    ring
  rw [hnear]
  refine ⟨k, _, ?_, ?_, rfl, ?_⟩
  · rcases Nat.eq_zero_or_pos k with h | h
    · exact .inl h
    · refine .inr ?_
      have hl : l = (k : Int) - 126 := by omega
      have := (hlog 149 (by omega)).1
      rwa [show (l + (149 : Nat)).toNat = k + 23 by omega] at this
  · rcases lt_or_ge l (-149) with h | h
    · have := (hlog (-l).toNat (by omega)).2
      rw [show (l + ((-l).toNat : Int)).toNat + 1 = 1 by omega] at this
      have h2 : num * 2 ^ 149 ≤ num * 2 ^ (-l).toNat :=
        Nat.mul_le_mul_left _ (Nat.pow_le_pow_right (by norm_num) (by omega))
      have h3 : den * 2 ^ 1 ≤ den * 2 ^ (k + 24) :=
        Nat.mul_le_mul_left _ (Nat.pow_le_pow_right (by norm_num) (by omega))
      omega
    · have := (hlog 149 (by omega)).2
      refine lt_of_lt_of_le this (Nat.mul_le_mul_left _ (Nat.pow_le_pow_right (by norm_num) ?_))
      omega
  · generalize nearestEven (num * 2 ^ 149) (den * 2 ^ k) = n
    have hiff : 2 ^ 128 * 2 ^ up ≤ n * 2 ^ down ↔ 2 ^ 128 * 2 ^ 149 ≤ n * 2 ^ k := by
      have e1 : 2 ^ 128 * 2 ^ up * 2 ^ k = 2 ^ 128 * 2 ^ 149 * 2 ^ down := by
        rw [Nat.mul_assoc, ← pow_add, hexp, pow_add, ← Nat.mul_assoc]
      have e2 : n * 2 ^ down * 2 ^ k = n * 2 ^ k * 2 ^ down := by ring
      rw [← Nat.mul_le_mul_right_iff (show 0 < 2 ^ k by positivity), e1, e2,
        Nat.mul_le_mul_right_iff (show 0 < 2 ^ down by positivity)]
    unfold f32Over
    by_cases h : 2 ^ 128 * 2 ^ 149 ≤ n * 2 ^ k
    · rw [if_pos h, if_pos (hiff.2 h)]
    · rw [if_neg h, if_neg (mt hiff.1 h)]

/-- The bounds of the significand `n` and exponent `k` of `rne_spec`. -/
theorem rne_bounds {a den k : Nat} (hd : 0 < den)
    (hlo : k = 0 ∨ den * 2 ^ (k + 23) ≤ a) (hhi : a < den * 2 ^ (k + 24)) :
    nearestEven a (den * 2 ^ k) ≤ 2 ^ 24 ∧ (k = 0 ∨ 2 ^ 23 ≤ nearestEven a (den * 2 ^ k)) := by
  have hpos : 0 < den * 2 ^ k := by positivity
  obtain ⟨h1, h2, -⟩ := nearestEven_spec a hpos
  generalize nearestEven a (den * 2 ^ k) = n at *
  have e1 : den * 2 ^ (k + 24) = den * 2 ^ k * 2 ^ 24 := by rw [pow_add]; ring
  have e2 : den * 2 ^ (k + 23) = den * 2 ^ k * 2 ^ 23 := by rw [pow_add]; ring
  rw [e1] at hhi
  rw [e2] at hlo
  generalize den * 2 ^ k = q at *
  constructor
  · by_contra hc
    have : (2 ^ 24 + 1) ≤ n := by omega
    have := Nat.mul_le_mul_right q this
    nlinarith
  · rcases hlo with h | h
    · exact .inl h
    · refine .inr ?_
      by_contra hc
      have : n + 1 ≤ 2 ^ 23 := by omega
      have := Nat.mul_le_mul_right q this
      nlinarith

theorem finite_bits_lt {k n : Nat} (hk : k ≤ 253) (hn : n ≤ 2 ^ 24) (h : k < 253 ∨ n < 2 ^ 24) :
    k * 2 ^ 23 + n < 0x7F800000 := by omega

/-- What `rne` can answer: an infinity, or a finite pattern `k * 2^23 + n` of magnitude `n * 2^k`. -/
theorem rne_cases (neg : Bool) {num den : Nat} (hn : 0 < num) (hd : 0 < den) :
    ∃ k n : Nat, (k = 0 ∨ den * 2 ^ (k + 23) ≤ num * 2 ^ 149) ∧ num * 2 ^ 149 < den * 2 ^ (k + 24) ∧
      n = nearestEven (num * 2 ^ 149) (den * 2 ^ k) ∧ n ≤ 2 ^ 24 ∧ (k = 0 ∨ 2 ^ 23 ≤ n) ∧
      ((f32Over ≤ n * 2 ^ k ∧ rne neg num den = f32Inf neg) ∨
        (n * 2 ^ k < f32Over ∧ k ≤ 253 ∧ k * 2 ^ 23 + n < 0x7F800000 ∧
          rne neg num den = f32Pattern neg (k * 2 ^ 23 + n) ∧
          f32Mag (rne neg num den) = n * 2 ^ k)) := by
  obtain ⟨k, n, hlo, hhi, hnear, hr⟩ := rne_spec neg hn hd
  obtain ⟨b1, b2⟩ := rne_bounds hd hlo hhi
  rw [← hnear] at b1 b2
  refine ⟨k, n, hlo, hhi, hnear, b1, b2, ?_⟩
  by_cases h : f32Over ≤ n * 2 ^ k
  · exact .inl ⟨h, by rw [hr, if_pos h]⟩
  · rw [if_neg h] at hr
    have h : n * 2 ^ k < f32Over := not_le.1 h
    have hk : k ≤ 253 := by
      by_contra hc
      have h23 : 2 ^ 23 ≤ n := by omega
      have : 2 ^ 254 ≤ 2 ^ k := Nat.pow_le_pow_right (by norm_num) (by omega)
      have hmul := Nat.mul_le_mul h23 this
      rw [f32Over, ← pow_add] at h
      rw [← pow_add] at hmul
      exact absurd ((Nat.pow_lt_pow_iff_right (show 1 < 2 by norm_num)).1 (hmul.trans_lt h)) (by norm_num)
    have hm : k * 2 ^ 23 + n < 0x7F800000 := by
      rcases Nat.lt_or_ge k 253 with h' | h'
      · exact finite_bits_lt hk b1 (.inl h')
      · obtain rfl : k = 253 := by omega
        have : n < 2 ^ 24 := by
          by_contra hc
          have hmul := Nat.mul_le_mul_right (2 ^ 253) (show 2 ^ 24 ≤ n by omega)
          rw [f32Over, ← pow_add] at h
          rw [← pow_add] at hmul
          exact absurd ((Nat.pow_lt_pow_iff_right (show 1 < 2 by norm_num)).1 (hmul.trans_lt h)) (by norm_num)
        exact finite_bits_lt hk b1 (.inr this)
    exact .inr ⟨h, hk, hm, hr, by rw [hr]; exact f32Mag_pattern neg hk b1 b2 hm⟩

/-- The sign of a rounded value is the sign asked for. -/
theorem f32Sign_rne (neg : Bool) {num den : Nat} (hn : 0 < num) (hd : 0 < den) :
    f32Sign (rne neg num den) = neg := by
  obtain ⟨k, n, -, -, -, -, -, h⟩ := rne_cases neg hn hd
  rcases h with ⟨-, h⟩ | ⟨-, -, -, h, -⟩ <;> rw [h]
  · exact (f32_inf_pattern neg).2.2
  · exact f32Sign_pattern neg _

/-- Rounding never gives NaN. -/
theorem rne_not_nan (neg : Bool) {num den : Nat} (hn : 0 < num) (hd : 0 < den) :
    f32IsNaN (rne neg num den) = false := by
  obtain ⟨k, n, -, -, -, -, -, h⟩ := rne_cases neg hn hd
  rcases h with ⟨-, h⟩ | ⟨-, -, hm, h, -⟩ <;> rw [h]
  · exact (f32_inf_pattern neg).1
  · exact (f32_finite_pattern neg hm).1

/-- Writing the ratio with a common factor does not change its rounding. -/
theorem rne_mul_right (neg : Bool) {num den c : Nat} (hn : 0 < num) (hd : 0 < den) (hc : 0 < c) :
    rne neg (num * c) (den * c) = rne neg num den := by
  obtain ⟨k, n, lo, hi, e, r⟩ := rne_spec neg hn hd
  obtain ⟨k', n', lo', hi', e', r'⟩ :=
    rne_spec neg (show 0 < num * c by positivity) (show 0 < den * c by positivity)
  have c1 : num * c * 2 ^ 149 = num * 2 ^ 149 * c := by ring
  have c2 : ∀ j, den * c * 2 ^ j = den * 2 ^ j * c := fun j => by ring
  rw [c1, c2] at hi' lo'
  rw [c1, c2] at e'
  rw [Nat.mul_lt_mul_right hc] at hi'
  rw [Nat.mul_le_mul_right_iff hc] at lo'
  rw [nearestEven_mul_right _ _ hc] at e'
  have hle : ∀ {i j : Nat}, (i = 0 ∨ den * 2 ^ (i + 23) ≤ num * 2 ^ 149) →
      num * 2 ^ 149 < den * 2 ^ (j + 24) → i ≤ j := by
    intro i j h1 h2
    rcases h1 with h1 | h1
    · omega
    · have := Nat.lt_of_mul_lt_mul_left (lt_of_le_of_lt h1 h2)
      have := (Nat.pow_lt_pow_iff_right (show 1 < 2 by norm_num)).1 this
      omega
  obtain rfl : k = k' := le_antisymm (hle lo hi') (hle lo' hi)
  rw [r, r', e, e']

/-- An integer with a significand of 24 bits is its own rounding (R22, R24). -/
theorem rne_int_exact (neg : Bool) {m : Nat} (hm : 0 < m) (hlt : m ≤ 2 ^ 24) :
    f32Mag (rne neg m 1) = m * 2 ^ 149 ∧ f32IsInf (rne neg m 1) = false := by
  obtain ⟨k, n, lo, hi, e, -, -, h⟩ := rne_cases neg hm Nat.one_pos
  simp only [Nat.one_mul] at lo hi e
  have hcap : m * 2 ^ 149 ≤ 2 ^ (24 + 149) := by rw [pow_add]; exact Nat.mul_le_mul_right _ hlt
  have hdvd : 2 ^ k ∣ m * 2 ^ 149 := by
    rcases lo with lo | lo
    · simp [lo]
    · have hk : k + 23 ≤ 24 + 149 :=
        (Nat.pow_le_pow_iff_right (show 1 < 2 by norm_num)).1 (lo.trans hcap)
      rcases Nat.lt_or_ge k 150 with h' | h'
      · exact dvd_mul_of_dvd_right (pow_dvd_pow 2 (by omega)) m
      · obtain rfl : k = 150 := by omega
        rw [le_antisymm hcap lo]
        exact pow_dvd_pow 2 (by norm_num)
  have hn : n * 2 ^ k = m * 2 ^ 149 := by
    obtain ⟨c, hc⟩ := hdvd
    rw [hc, Nat.mul_comm (2 ^ k) c] at e ⊢
    rw [e, nearestEven_exact _ (by positivity)]
  rcases h with ⟨h, -⟩ | ⟨-, -, hfin, hr, hmag⟩
  · rw [hn] at h
    rw [f32Over, ← pow_add] at h
    exact absurd ((Nat.pow_le_pow_iff_right (show 1 < 2 by norm_num)).1 (h.trans hcap)) (by norm_num)
  · exact ⟨by rw [hmag, hn], by rw [hr]; exact (f32_finite_pattern neg hfin).2⟩

/-! The operations on finite values (R25, R27). -/

theorem rneInt_eq {num : Int} (den : Nat) :
    rneInt num den = rne (decide (num < 0)) num.natAbs den := rfl

/-- Rounding never gives NaN. -/
theorem rneInt_not_nan {num : Int} {den : Nat} (hn : num ≠ 0) (hd : 0 < den) :
    f32IsNaN (rneInt num den) = false := rne_not_nan _ (by omega) hd

/-- A value of at least one unit of 2^-149 does not round to a zero. -/
theorem rne_ne_zero (neg : Bool) {num den : Nat} (hd : 0 < den)
    (hle : den ≤ num * 2 ^ 149) : f32Mag (rne neg num den) ≠ 0 ∨ f32IsInf (rne neg num den) = true := by
  have hn : 0 < num := by
    rcases Nat.eq_zero_or_pos num with h | h
    · subst h; omega
    · exact h
  obtain ⟨k, n, -, -, hnear, -, hlead, h⟩ := rne_cases neg hn hd
  rcases h with ⟨-, h⟩ | ⟨-, -, -, -, hmag⟩
  · exact .inr (by rw [h]; exact (f32_inf_pattern neg).2.1)
  · refine .inl ?_
    rw [hmag]
    have : 0 < n := by
      rcases hlead with h0 | h23
      · subst h0
        obtain ⟨h1, -, -⟩ := nearestEven_spec (num * 2 ^ 149) (show 0 < den * 2 ^ 0 by positivity)
        rw [← hnear] at h1
        rw [pow_zero, Nat.mul_one] at h1
        generalize num * 2 ^ 149 = a at *
        by_contra hc
        obtain rfl : n = 0 := by omega
        omega
      · omega
    positivity

/-- `f32Add` of two finite values (R25). -/
theorem f32Add_finite {x y : F32} (hx : f32IsFinite x = true) (hy : f32IsFinite y = true) :
    f32Add x y =
      if f32Scaled x + f32Scaled y = 0 then
        if x = 0x80000000#32 ∧ y = 0x80000000#32 then 0x80000000#32 else 0x00000000#32
      else rneInt (f32Scaled x + f32Scaled y) (2 ^ 149) := by
  obtain ⟨nx, ix⟩ := (f32IsFinite_iff x).1 hx
  obtain ⟨ny, iy⟩ := (f32IsFinite_iff y).1 hy
  unfold f32Add
  rw [nx, ny, ix, iy]
  rfl

/-- The bit pattern whose sign bit is flipped is -0.0 exactly for +0.0. -/
theorem f32Flip_eq_negZero (y : F32) : y ^^^ 0x80000000#32 = 0x80000000#32 ↔ y = 0x00000000#32 := by
  constructor
  · intro h
    have := congrArg (· ^^^ 0x80000000#32) h
    simpa [BitVec.xor_assoc] using this
  · rintro rfl; rfl

/-- `f32Sub` of two finite values (R26). -/
theorem f32Sub_finite {x y : F32} (hx : f32IsFinite x = true) (hy : f32IsFinite y = true) :
    f32Sub x y =
      if f32Scaled x - f32Scaled y = 0 then
        if x = 0x80000000#32 ∧ y = 0x00000000#32 then 0x80000000#32 else 0x00000000#32
      else rneInt (f32Scaled x - f32Scaled y) (2 ^ 149) := by
  rw [f32Sub, f32Add_finite hx (by rwa [f32IsFinite_flip]), f32Scaled_flip, ← Int.sub_eq_add_neg]
  simp only [f32Flip_eq_negZero]

/-- `f32Mul` of two finite values (R27). -/
theorem f32Mul_finite {x y : F32} (hx : f32IsFinite x = true) (hy : f32IsFinite y = true) :
    f32Mul x y =
      if f32Scaled x * f32Scaled y = 0 then f32Zero (f32Sign x != f32Sign y)
      else rneInt (f32Scaled x * f32Scaled y) (2 ^ 149 * 2 ^ 149) := by
  obtain ⟨nx, ix⟩ := (f32IsFinite_iff x).1 hx
  obtain ⟨ny, iy⟩ := (f32IsFinite_iff y).1 hy
  unfold f32Mul
  rw [nx, ny, ix, iy]
  simp only [Bool.or_false, Bool.false_and, Bool.and_false, Bool.false_eq_true, if_false]

/-- No sum of anything but -0.0 with anything is -0.0 (R25; spec 43_lms.md R712). -/
theorem f32Add_ne_negZero {x y : F32} (hx : x ≠ 0x80000000#32) : f32Add x y ≠ 0x80000000#32 := by
  have hinf : ∀ z, f32IsInf z = true → z ≠ 0x80000000#32 := by
    rintro z h rfl; exact absurd h (by decide)
  unfold f32Add
  split
  case isTrue => decide
  split
  case isTrue => decide
  split
  case isTrue => exact hx
  split
  case isTrue h => exact hinf _ h
  dsimp only
  split
  case isTrue => rw [if_neg (fun h => hx h.1)]; decide
  case isFalse h =>
    intro he
    have h1 : 1 ≤ (f32Scaled x + f32Scaled y).natAbs := by omega
    have := rne_ne_zero (decide (f32Scaled x + f32Scaled y < 0)) (den := 2 ^ 149) (by positivity)
      (Nat.le_mul_of_pos_left (2 ^ 149) h1)
    rw [← rneInt_eq, he] at this
    exact absurd this (by decide)

/-- An integer of up to 24 bits and its binary32 have the same value, and it is never -0.0 (R22). -/
theorem i2f_spec {i : Int} (h : i.natAbs ≤ 2 ^ 24) :
    f32IsFinite (i2f i) = true ∧ f32Scaled (i2f i) = i * 2 ^ 149 ∧ i2f i ≠ 0x80000000#32 := by
  by_cases h0 : i = 0
  · subst h0; decide
  · have hpos : 0 < i.natAbs := by omega
    have hi : i2f i = rne (decide (i < 0)) i.natAbs 1 := by rw [i2f, if_neg h0, rneInt_eq]
    obtain ⟨hmag, hinf⟩ := rne_int_exact (decide (i < 0)) hpos h
    have hnan := rne_not_nan (decide (i < 0)) hpos Nat.one_pos
    have hsign := f32Sign_rne (decide (i < 0)) hpos Nat.one_pos
    rw [hi]
    refine ⟨(f32IsFinite_iff _).2 ⟨hnan, hinf⟩, ?_, ?_⟩
    · rw [f32Scaled, hsign, hmag, Nat.cast_mul]
      by_cases hn : i < 0
      · rw [decide_eq_true hn, if_pos rfl, show (i.natAbs : Int) = -i by omega]; push_cast; ring
      · rw [decide_eq_false hn, if_neg (by simp), show (i.natAbs : Int) = i by omega]; push_cast; ring
    · intro hh
      rw [hh, show f32Mag 0x80000000#32 = 0 by decide] at hmag
      omega

/-- A finite magnitude is a 24-bit integer times a power of two (R20). -/
theorem f32Mag_form (y : F32) : ∃ m j : Nat, f32Mag y = m * 2 ^ j ∧ m < 2 ^ 24 := by
  have := f32Frac_lt y
  unfold f32Mag
  split
  · exact ⟨f32Frac y, 0, by simp, by omega⟩
  · exact ⟨_, _, rfl, by omega⟩

/-- Of all multiples `c` of a unit `q`, the rounded one is nearest; another is equally near only when
the rounded one is even (R24). -/
theorem nearestEven_nearest {a q : Nat} (hq : 0 < q) (c : Int) :
    ((nearestEven a q : Int) * q - a).natAbs ≤ (c * q - a).natAbs ∧
      ((c * q - a).natAbs = ((nearestEven a q : Int) * q - a).natAbs →
        c = nearestEven a q ∨ nearestEven a q % 2 = 0) := by
  obtain ⟨h1, h2, h3⟩ := nearestEven_spec a hq
  generalize nearestEven a q = n at *
  zify at h1 h2 h3
  have hq' : (0 : Int) ≤ q := by positivity
  have e2 : (2 * (n : Int) + 1) * q = 2 * (n * q) + q := by ring
  have e3 : (2 * (n : Int)) * q = 2 * (n * q) := by ring
  rw [e2] at h1 h3
  rw [e3] at h2 h3
  clear e2 e3
  rcases lt_trichotomy c n with h | h | h
  · have hc : c * q ≤ ((n : Int) - 1) * q := Int.mul_le_mul_of_nonneg_right (by omega) hq'
    rw [show ((n : Int) - 1) * q = n * q - q by ring] at hc
    generalize (n : Int) * q = nq at *
    generalize c * q = cq at *
    refine ⟨by omega, fun hh => .inr ?_⟩
    have := h3 (.inr (by omega))
    omega
  · subst h; exact ⟨le_refl _, fun _ => .inl rfl⟩
  · have hc : ((n : Int) + 1) * q ≤ c * q := Int.mul_le_mul_of_nonneg_right (by omega) hq'
    rw [show ((n : Int) + 1) * q = n * q + q by ring] at hc
    generalize (n : Int) * q = nq at *
    generalize c * q = cq at *
    refine ⟨by omega, fun hh => .inr ?_⟩
    have := h3 (.inl (by omega))
    omega

end Sys2Proof.Machine
end

