-- ==== Sys2Proof/Laws/Decode.lean ====
section
/-! SUPPORT. The field layout is a bijection (spec 30_encoding.md R306), and what the decoder's parts
say. -/

namespace Sys2Proof

/-- The number of a concatenation. -/
theorem append_toNat {n k : Nat} (a : BitVec n) (b : BitVec k) :
    (a ++ b).toNat = a.toNat * 2 ^ k + b.toNat := by
  rw [BitVec.toNat_append, ← Nat.shiftLeft_add_eq_or_of_lt b.isLt, Nat.shiftLeft_eq]

/-- Packing fields and taking the word apart again gives the fields. -/
@[simp] theorem fieldsOf_wordOf (f : Fields) : fieldsOf (wordOf f) = f := by
  obtain ⟨op, sel, rsv, idx, a, b⟩ := f
  simp only [fieldsOf, wordOf, Fields.mk.injEq]
  refine ⟨?_, ?_, ?_, ?_, ?_, ?_⟩ <;>
    (apply BitVec.eq_of_getLsbD_eq; intro i hi
     simp only [BitVec.getLsbD_extractLsb', BitVec.getLsbD_append, hi, decide_true, Bool.true_and]
     repeat' split
     all_goals first | omega | (congr 1; omega))

/-- Taking a word apart and packing its fields again gives the word. -/
@[simp] theorem wordOf_fieldsOf (w : Word64) : wordOf (fieldsOf w) = w := by
  apply BitVec.eq_of_getLsbD_eq
  intro i hi
  simp only [fieldsOf, wordOf, BitVec.getLsbD_extractLsb', BitVec.getLsbD_append]
  repeat' split
  all_goals
    rw [decide_eq_true (by omega), Bool.true_and]; congr 1; omega

/-- The decoder reads the encoder's fields. -/
theorem decode_encode_eq (i : Instr) : decode (encode i) = decodeFields (fieldsOfInstr i) := by
  simp [decode, encode]

@[simp] theorem opcodeOf_opcodeBits (o : Opcode) : opcodeOf (opcodeBits o) = some o := by
  cases o <;> rfl

/-- An assigned opcode is read from its own bits only. -/
theorem opcodeOf_eq_some_iff (op : BitVec 4) (o : Opcode) :
    opcodeOf op = some o ↔ op = opcodeBits o := by
  revert op; cases o <;> decide

/-- The reserved opcodes are 0x8 to 0xF. -/
theorem opcodeOf_eq_none_iff (op : BitVec 4) : opcodeOf op = none ↔ 8 ≤ op.toNat := by
  revert op; decide

/-- A 16-bit pattern read as two's complement is a Sample. -/
theorem sext16_inRange (v : BitVec 16) : sampleInRange (sext16 v) = true := by
  have h1 := BitVec.le_two_mul_toInt (x := v)
  have h2 := BitVec.two_mul_toInt_lt (x := v)
  simp only [sampleInRange, Bool.and_eq_true, decide_eq_true_iff]
  unfold sext16
  omega

/-- A Sample survives the trip through its field. -/
theorem sext16_bits16 {i : Int} (h : sampleInRange i = true) : sext16 (bits16 i) = i := by
  simp only [sampleInRange, Bool.and_eq_true, decide_eq_true_iff] at h
  simp only [sext16, bits16, BitVec.toInt_ofInt]
  rw [Int.bmod_eq_of_le] <;> omega

@[simp] theorem bits16_sext16 (v : BitVec 16) : bits16 (sext16 v) = v := by
  simp [sext16, bits16]

end Sys2Proof
end

