-- ==== Sys2Proof/Laws/Lms.lean ====
section
/-! SUPPORT. The array helpers of the LMS variant: lengths, elements, and what they read (spec
43_lms.md R700 to R704). -/

namespace Sys2Proof.Machine

@[simp] theorem shiftIn_length (n : Nat) (x : F32) (ys : List F32) :
    (shiftIn n x ys).length = ys.length := by
  induction n, x, ys using shiftIn.induct with
  | case1 n x y ys ih => simp [shiftIn, ih]
  | case2 n x ys h => cases n <;> cases ys <;> simp_all [shiftIn]

@[simp] theorem updateTaps_length (n : Nat) (g : F32) (ws ds : List F32) :
    (updateTaps n g ws ds).length = ws.length := by
  induction n, g, ws, ds using updateTaps.induct with
  | case1 n g w ws d ds ih => simp [updateTaps, ih]
  | case2 n g ws ds h => cases n <;> cases ws <;> cases ds <;> simp_all [updateTaps]

/-- Element 0 is the new sample (spec 43_lms.md R701). -/
theorem shiftIn_zero {n : Nat} (x : F32) {ys : List F32} (hn : 0 < n) (hy : 0 < ys.length) :
    (shiftIn n x ys)[0]? = some x := by
  cases n with
  | zero => omega
  | succ n => cases ys with
    | nil => simp at hy
    | cons y ys => rfl

/-- Element `i + 1` below `n` is the old element `i` (spec 43_lms.md R701). -/
theorem shiftIn_succ (n : Nat) (x : F32) (ys : List F32) (i : Nat) (hi : i + 1 < n)
    (hy : i + 1 < ys.length) : (shiftIn n x ys)[i + 1]? = ys[i]? := by
  induction n generalizing x ys i with
  | zero => omega
  | succ n ih =>
    cases ys with
    | nil => simp at hy
    | cons y ys =>
      simp only [shiftIn, List.getElem?_cons_succ]
      cases i with
      | zero => simpa using shiftIn_zero y (by omega) (by simpa using hy)
      | succ i => simpa using ih y ys i (by omega) (by simpa using hy)

/-- The elements from `n` on stay (spec 43_lms.md R700). -/
@[simp] theorem drop_shiftIn (n : Nat) (x : F32) (ys : List F32) :
    (shiftIn n x ys).drop n = ys.drop n := by
  induction n generalizing x ys with
  | zero => simp [shiftIn]
  | succ n ih => cases ys <;> simp [shiftIn, ih]

/-- The elements from `n` on stay (spec 43_lms.md R700). -/
@[simp] theorem drop_updateTaps (n : Nat) (g : F32) (ws ds : List F32) :
    (updateTaps n g ws ds).drop n = ws.drop n := by
  induction n generalizing ws ds with
  | zero => simp [updateTaps]
  | succ n ih => cases ws <;> cases ds <;> simp [updateTaps, ih]

/-- Tap `i` below `n` gains `g * D[i]` (spec 43_lms.md R704). -/
theorem updateTaps_getElem? (n : Nat) (g : F32) (ws ds : List F32) (i : Nat) (hi : i < n)
    {w d : F32} (hw : ws[i]? = some w) (hd : ds[i]? = some d) :
    (updateTaps n g ws ds)[i]? = some (f32Add w (f32Mul g d)) := by
  induction n generalizing ws ds i with
  | zero => omega
  | succ n ih =>
    cases ws with
    | nil => simp at hw
    | cons w' ws =>
      cases ds with
      | nil => simp at hd
      | cons d' ds =>
        cases i with
        | zero => simp_all [updateTaps]
        | succ i => simpa [updateTaps] using ih ws ds i (by omega) (by simpa using hw) (by simpa using hd)

/-- The helpers read the first `n` elements only. -/
theorem take_shiftIn (n : Nat) (x : F32) (ys : List F32) :
    (shiftIn n x ys).take n = shiftIn n x (ys.take n) := by
  induction n generalizing x ys with
  | zero => simp [shiftIn]
  | succ n ih => cases ys <;> simp [shiftIn, ih]

theorem dotFrom_take (n : Nat) (acc : F32) (ws ds : List F32) :
    dotFrom n acc ws ds = dotFrom n acc (ws.take n) (ds.take n) := by
  induction n generalizing acc ws ds with
  | zero => simp [dotFrom]
  | succ n ih => cases ws <;> cases ds <;> simp [dotFrom, ← ih]

/-- The sum as a fold over the indices, in order (spec 43_lms.md R702). -/
theorem dotFrom_eq_foldl (n : Nat) (acc : F32) (ws ds : List F32) (hw : n ≤ ws.length)
    (hd : n ≤ ds.length) :
    dotFrom n acc ws ds =
      (List.range n).foldl (fun a i => f32Add a (f32Mul (ws.getD i 0) (ds.getD i 0))) acc := by
  induction n generalizing acc ws ds with
  | zero => rfl
  | succ n ih =>
    cases ws with
    | nil => simp at hw
    | cons w ws =>
      cases ds with
      | nil => simp at hd
      | cons d ds =>
        rw [dotFrom, ih _ _ _ (by simpa using hw) (by simpa using hd), List.range_succ_eq_map]
        simp [List.foldl_map]

theorem take_updateTaps (n : Nat) (g : F32) (ws ds : List F32) :
    (updateTaps n g ws ds).take n = updateTaps n g (ws.take n) (ds.take n) := by
  induction n generalizing ws ds with
  | zero => simp [updateTaps]
  | succ n ih => cases ws <;> cases ds <;> simp [updateTaps, ih]

/-- Where the elements of the shifted line come from. -/
theorem mem_shiftIn {n : Nat} {x v : F32} {ys : List F32} (h : v ∈ shiftIn n x ys) :
    v = x ∨ v ∈ ys := by
  induction n generalizing x ys with
  | zero => simp_all [shiftIn]
  | succ n ih =>
    cases ys with
    | nil => simp [shiftIn] at h
    | cons y ys =>
      simp only [shiftIn, List.mem_cons] at h ⊢
      rcases h with h | h
      · exact .inl h
      · rcases ih h with h | h <;> simp [h]

/-- Where the elements of the updated taps come from. -/
theorem mem_updateTaps {n : Nat} {g v : F32} {ws ds : List F32} (h : v ∈ updateTaps n g ws ds) :
    v ∈ ws ∨ ∃ w ∈ ws, ∃ d ∈ ds, v = f32Add w (f32Mul g d) := by
  induction n generalizing ws ds with
  | zero => simp_all [updateTaps]
  | succ n ih =>
    cases ws with
    | nil => simp [updateTaps] at h
    | cons w ws =>
      cases ds with
      | nil => exact .inl (by simpa [updateTaps] using h)
      | cons d ds =>
        simp only [updateTaps, List.mem_cons] at h
        rcases h with h | h
        · exact .inr ⟨w, by simp, d, by simp, h⟩
        · rcases ih h with h | ⟨a, ha, b, hb, hv⟩
          · simp [h]
          · exact .inr ⟨a, by simp [ha], b, by simp [hb], hv⟩

end Sys2Proof.Machine
end

