-- ==== Sys2Proof/Laws/Ops.lean ====
section
/-! SUPPORT. What each shared operation does, once: the response word's fields, the register an index
names, the answers of `respond` and `fail`, and what a command can do. -/

namespace Sys2Proof.Machine

/-! The response word (spec 30_encoding.md R320). -/

@[simp] theorem rspData_pack (r : Response) : rspData (packResponse r) = r.data := by
  apply BitVec.eq_of_getLsbD_eq; intro i hi
  simp only [rspData, packResponse, BitVec.getLsbD_extractLsb', BitVec.getLsbD_append, hi,
    decide_true, Bool.true_and]
  repeat' split
  all_goals first | omega | (congr 1; omega)

@[simp] theorem rspStatus_pack (r : Response) : rspStatus (packResponse r) = statusCode r.status := by
  apply BitVec.eq_of_getLsbD_eq; intro i hi
  simp only [rspStatus, packResponse, BitVec.getLsbD_extractLsb', BitVec.getLsbD_append, hi,
    decide_true, Bool.true_and]
  repeat' split
  all_goals first | omega | (congr 1; omega)

@[simp] theorem rspReserved_pack (r : Response) : rspReserved (packResponse r) = 0#7 := by
  apply BitVec.eq_of_getLsbD_eq; intro i hi
  simp only [rspReserved, packResponse, BitVec.getLsbD_extractLsb', BitVec.getLsbD_append, hi,
    decide_true, Bool.true_and]
  repeat' split
  all_goals first | omega | simp

@[simp] theorem rspAct_pack (r : Response) : rspAct (packResponse r) = r.act := by
  simp only [rspAct, packResponse, BitVec.getLsbD_append]
  simp

@[simp] theorem rspOut_pack (r : Response) : rspOut (packResponse r) = r.out := by
  apply BitVec.eq_of_getLsbD_eq; intro i hi
  simp only [rspOut, packResponse, BitVec.getLsbD_extractLsb', BitVec.getLsbD_append, hi,
    decide_true, Bool.true_and]
  repeat' split
  all_goals first | omega | (congr 1; omega)

/-- An OK answer that carries data only. -/
theorem packResponse_data (v : Word32) : packResponse { data := v } = v ++ 0#32 :=
  congrArg (v ++ ·)
    (by decide : statusCode .ok ++ (0#7 ++ (BitVec.ofBool false ++ 0#16)) = 0#32)

/-- An answer of a status alone, `(32'b0, STATUS, 24'b0)` (spec 30_encoding.md R321). -/
theorem packResponse_status (st : Status) :
    packResponse { status := st } = 0#32 ++ (statusCode st ++ 0#24) := by
  cases st <;> decide

/-- Only OK has code 0 (spec 60_exceptions.md R1001). -/
@[simp] theorem statusCode_eq_zero (st : Status) : statusCode st = 0#8 ↔ st = .ok := by
  cases st <;> decide

/-- No code above 7 is ever given (spec 60_exceptions.md R1001). -/
theorem statusCode_le (st : Status) : statusCode st ≤ 7#8 := by cases st <;> decide

/-! The configuration space (spec 20_memory.md R201). -/

theorem regIndex_toNat_le (r : Reg) : (regIndex r).toNat ≤ 0x000D := by cases r <;> decide

@[simp] theorem regAt_regIndex (r : Reg) : regAt (regIndex r) = some r := by cases r <;> rfl

theorem regAt_eq_some_iff (idx : BitVec 16) (r : Reg) : regAt idx = some r ↔ idx = regIndex r := by
  constructor
  · intro h
    have := List.find?_some h
    simpa using (beq_iff_eq.1 this).symm
  · rintro rfl; exact regAt_regIndex r

theorem regAt_eq_none_iff (idx : BitVec 16) : regAt idx = none ↔ 0x000D < idx.toNat := by
  constructor
  · intro h
    by_contra hle
    have hle : idx.toNat ≤ 13 := by omega
    have hi : idx = BitVec.ofNat 16 idx.toNat := by simp
    generalize idx.toNat = k at hle hi
    subst hi
    interval_cases k <;> exact absurd h (by decide)
  · intro h
    cases hr : regAt idx with
    | none => rfl
    | some r =>
      rw [(regAt_eq_some_iff idx r).1 hr] at h
      have := regIndex_toNat_le r
      omega

/-- A legal `VARIANT` word is the word of the variant it selects (spec 10_state.md R110, R114). -/
theorem variantWord_variantOf {v : Word32} (h : legalVariant v = true) :
    variantWord (variantOf v) = v := by
  simp only [legalVariant, Bool.and_eq_true, beq_iff_eq, bne_iff_ne, ne_eq] at h
  obtain ⟨hi, lo⟩ := h
  have split : v = v.extractLsb' 2 30 ++ v.extractLsb' 0 2 := by
    apply BitVec.eq_of_getLsbD_eq; intro i hi
    simp only [BitVec.getLsbD_append, BitVec.getLsbD_extractLsb']
    split
    · simp_all
    · rw [decide_eq_true (by omega), Bool.true_and]; congr 1; omega
  rw [hi] at split
  unfold variantOf
  generalize v.extractLsb' 0 2 = x at *
  subst split
  revert lo; revert x; decide

/-- An accepted value reads back bit for bit (spec 10_state.md R110). -/
theorem readReg_writeReg_same {r : Reg} {v : Word32} {s : State}
    (h : legalValue s.nmax r v = true) : readReg (writeReg r v s) r = v := by
  cases r <;> first | rfl | exact variantWord_variantOf h | exact absurd h (by simp [legalValue])

/-- A write leaves every other register as it was (spec 40_control.md R420). -/
theorem readReg_writeReg_other {r q : Reg} (v : Word32) (s : State) (h : q ≠ r) :
    readReg (writeReg r v s) q = readReg s q := by
  cases r <;> cases q <;> first | rfl | exact absurd rfl h

/-! Answers. -/

@[simp] theorem respond_eq (r : Response) (s : State) :
    respond r s = .next { s with port := .busy (packResponse r) } := rfl

@[simp] theorem fail_eq (st : Status) (s : State) :
    fail st s = .next { s with port := .busy (packResponse { status := st }) } := rfl

/-- What a command can do: it is answered OK with a new core state, or it fails and only the answer
is new (spec 60_exceptions.md R1002). -/
theorem exec_cases (i : Instr) (s : State) :
    (∃ (u : State) (r : Response), r.status = .ok ∧ exec i s = respond r u ∧
      u.nmax = s.nmax ∧ u.edges = s.edges) ∨
    (∃ st : Status, st ≠ .ok ∧ exec i s = fail st s) := by
  cases i with
  | nop => exact .inl ⟨s, {}, rfl, rfl, rfl, rfl⟩
  | cfgRd idx =>
    simp only [exec, execCfgRd]
    cases regAt idx with
    | none => exact .inr ⟨.badIndex, by decide, rfl⟩
    | some r => exact .inl ⟨s, { data := readReg s r }, rfl, rfl, rfl, rfl⟩
  | cfgWr idx v =>
    simp only [exec, execCfgWr]
    cases s.mode with
    | running => exact .inr ⟨.cfgLocked, by decide, rfl⟩
    | idle =>
      cases regAt idx with
      | none => exact .inr ⟨.badIndex, by decide, rfl⟩
      | some r =>
        dsimp only
        split
        · exact .inr ⟨.readOnly, by decide, rfl⟩
        · split
          · exact .inl ⟨writeReg r v s, {}, rfl, rfl, by cases r <;> rfl, by cases r <;> rfl⟩
          · exact .inr ⟨.badValue, by decide, rfl⟩
  | start =>
    simp only [exec, execStart]
    cases s.mode with
    | running => exact .inr ⟨.alreadyRunning, by decide, rfl⟩
    | idle => exact .inl ⟨{ zeroFilterState s with mode := .running }, {}, rfl, rfl, rfl, rfl⟩
  | stop =>
    simp only [exec, execStop]
    cases s.mode with
    | running => exact .inl ⟨{ s with mode := .idle }, {}, rfl, rfl, rfl, rfl⟩
    | idle => exact .inr ⟨.notRunning, by decide, rfl⟩
  | proc n f =>
    simp only [exec, execProc]
    cases s.mode with
    | running =>
      refine .inl ⟨(filterSample n f s).1, procResponse n f s, rfl, rfl, ?_, ?_⟩ <;>
        (unfold filterSample variantStep; split <;> (try split) <;> rfl)
    | idle => exact .inr ⟨.notRunning, by decide, rfl⟩
  | procNoin =>
    simp only [exec, execProcNoin]
    cases s.mode with
    | running => exact .inl ⟨s, {}, rfl, rfl, rfl, rfl⟩
    | idle => exact .inr ⟨.notRunning, by decide, rfl⟩
  | rdState sel idx =>
    simp only [exec, execRdState]
    cases s.mode with
    | running =>
      cases stateElement s sel idx with
      | none => exact .inr ⟨.badIndex, by decide, rfl⟩
      | some v => exact .inl ⟨s, { data := v }, rfl, rfl, rfl, rfl⟩
    | idle => exact .inr ⟨.notRunning, by decide, rfl⟩

/-- A command reads nothing of the ports and changes nothing there but the answer (spec 30_encoding.md
R305). -/
theorem exec_ports (i : Instr) (s : State) (p : Port) (es : List Edge) :
    ∃ (u : State) (r : Word64), exec i s = .next { u with port := .busy r } ∧
      exec i { s with port := p, edges := es } = .next { u with port := .busy r, edges := es } ∧
      u.nmax = s.nmax ∧ u.edges = s.edges := by
  have hread : ∀ t : State, gateOpen { t with port := p, edges := es } = gateOpen t ∧
      variantRuns { t with port := p, edges := es } = variantRuns t ∧
      stateElement { t with port := p, edges := es } = stateElement t := fun _ => ⟨rfl, rfl, rfl⟩
  have hfilter : ∀ (n f : Int) (t : State), filterSample n f { t with port := p, edges := es } =
      ({ (filterSample n f t).1 with port := p, edges := es }, (filterSample n f t).2) := by
    intro n f t
    simp only [filterSample, variantStep, (hread t).2.1]
    split
    · obtain ⟨_, _, v, _⟩ := t; cases v <;> rfl
    · rfl
  have hrsp : ∀ (n f : Int) (t : State),
      procResponse n f { t with port := p, edges := es } = procResponse n f t := by
    intro n f t
    simp only [procResponse, hfilter, (hread t).1]
  have same : ∀ st, ∃ (u : State) (r : Word64), fail st s = .next { u with port := .busy r } ∧
      fail st { s with port := p, edges := es } = .next { u with port := .busy r, edges := es } ∧
      u.nmax = s.nmax ∧ u.edges = s.edges := fun _ => ⟨s, _, rfl, rfl, rfl, rfl⟩
  cases i with
  | nop => exact ⟨s, _, rfl, rfl, rfl, rfl⟩
  | cfgRd idx =>
    simp only [exec, execCfgRd]
    cases regAt idx with
    | none => exact same _
    | some r => cases r <;> exact ⟨s, _, rfl, rfl, rfl, rfl⟩
  | cfgWr idx v =>
    simp only [exec, execCfgWr]
    split
    · exact same _
    · cases regAt idx with
      | none => exact same _
      | some r =>
        dsimp only
        split_ifs
        · exact same _
        · cases r <;> exact ⟨writeReg _ v s, _, rfl, rfl, rfl, rfl⟩
        · exact same _
  | start =>
    simp only [exec, execStart]
    split
    · exact same _
    · exact ⟨{ zeroFilterState s with mode := .running }, _, rfl, rfl, rfl, rfl⟩
  | stop =>
    simp only [exec, execStop]
    split
    · exact same _
    · exact ⟨{ s with mode := .idle }, _, rfl, rfl, rfl, rfl⟩
  | proc n f =>
    simp only [exec, execProc]
    split
    · exact same _
    · refine ⟨(filterSample n f s).1, _, rfl, ?_, ?_, ?_⟩
      · rw [hrsp, hfilter]; rfl
      all_goals unfold filterSample variantStep; split <;> (try split) <;> rfl
  | procNoin =>
    simp only [exec, execProcNoin]
    split
    · exact same _
    · exact ⟨s, _, rfl, rfl, rfl, rfl⟩
  | rdState sel idx =>
    simp only [exec, execRdState, (hread s).2.2]
    split
    · exact same _
    · cases stateElement s sel idx with
      | none => exact same _
      | some v => exact ⟨s, _, rfl, rfl, rfl, rfl⟩

end Sys2Proof.Machine
end

