-- ==== Sys2Proof/Laws/PerInstr.lean ====
section
/-! SUPPORT. Statements per instruction. `Row`: a command's word matches its own row of the opcode
table (spec 30_encoding.md R330, R341). -/

namespace Sys2Proof.Laws

/-- A word masked is the word of its fields masked. -/
theorem wordOf_and (f m : Fields) :
    wordOf f &&& wordOf m =
      wordOf ⟨f.op &&& m.op, f.sel &&& m.sel, f.rsv &&& m.rsv, f.idx &&& m.idx, f.a &&& m.a,
        f.b &&& m.b⟩ := by
  apply BitVec.eq_of_getLsbD_eq
  intro i hi
  simp only [wordOf, BitVec.getLsbD_and, BitVec.getLsbD_append]
  repeat' split
  all_goals rfl

/-- The command's word matches the row of its opcode. -/
def Row.Statement (i : Instr) : Prop :=
  ∀ row ∈ opcodeTable, row.opcode = opcodeOfInstr i → rowMatches row (encode i) = true

/-- A command that uses no field has one word, and its row is that word under a full mask. -/
theorem Row.of_find (i : Instr) (r : OpcodeRow)
    (hr : opcodeTable.filter (fun row => row.opcode == opcodeOfInstr i) = [r])
    (h : rowMatches r (encode i) = true) : Row.Statement i := by
  intro row hm ho
  have : row ∈ opcodeTable.filter (fun row => row.opcode == opcodeOfInstr i) := by
    simp [List.mem_filter, hm, ho]
  rw [hr, List.mem_singleton] at this
  exact this ▸ h

theorem Row.nop : Row.Statement .nop := Row.of_find _ _ rfl (by decide)

theorem Row.cfgRd (idx : BitVec 16) : Row.Statement (.cfgRd idx) := by
  refine Row.of_find _ _ rfl ?_
  have hm : (0xFFFF0000FFFFFFFF : Word64) = wordOf ⟨0xF, 0xF, 0xFF, 0, 0xFFFF, 0xFFFF⟩ := rfl
  simp only [rowMatches, encode, fieldsOfInstr, hm, wordOf_and]
  simp; rfl

theorem Row.cfgWr (idx : BitVec 16) (value : Word32) : Row.Statement (.cfgWr idx value) := by
  refine Row.of_find _ _ rfl ?_
  have hm : (0xFFFF000000000000 : Word64) = wordOf ⟨0xF, 0xF, 0xFF, 0, 0, 0⟩ := rfl
  simp only [rowMatches, encode, fieldsOfInstr, hm, wordOf_and]
  simp; rfl

theorem Row.start : Row.Statement .start := Row.of_find _ _ rfl (by decide)

theorem Row.stop : Row.Statement .stop := Row.of_find _ _ rfl (by decide)

theorem Row.proc (noise fb : Int) : Row.Statement (.proc noise fb) := by
  refine Row.of_find _ _ rfl ?_
  have hm : (0xFFFFFFFF00000000 : Word64) = wordOf ⟨0xF, 0xF, 0xFF, 0xFFFF, 0, 0⟩ := rfl
  simp only [rowMatches, encode, fieldsOfInstr, hm, wordOf_and]
  simp; rfl

theorem Row.procNoin : Row.Statement .procNoin := Row.of_find _ _ rfl (by decide)

theorem Row.rdState (sel : BitVec 4) (idx : BitVec 16) : Row.Statement (.rdState sel idx) := by
  refine Row.of_find _ _ rfl ?_
  have hm : (0xF0FF0000FFFFFFFF : Word64) = wordOf ⟨0xF, 0, 0xFF, 0, 0xFFFF, 0xFFFF⟩ := rfl
  simp only [rowMatches, encode, fieldsOfInstr, hm, wordOf_and]
  simp; rfl

end Sys2Proof.Laws
end

