-- ==== Sys2Proof/Laws/Proc.lean ====
section
/-! SUPPORT. What the limiter's rounding does (spec 41_sample.md R520 to R524). -/

namespace Sys2Proof.Machine

/-- `roundHA` is within half a unit, an exact half goes away from zero, and the sign is kept. -/
theorem roundHA_spec (v : Int) :
    (2 * (roundHA v (2 ^ 149) * 2 ^ 149 - v)).natAbs ≤ 2 ^ 149 ∧
      ((2 * (roundHA v (2 ^ 149) * 2 ^ 149 - v)).natAbs = 2 ^ 149 →
        v.natAbs < (roundHA v (2 ^ 149) * 2 ^ 149).natAbs) ∧
      (0 < v → 0 ≤ roundHA v (2 ^ 149)) ∧ (v < 0 → roundHA v (2 ^ 149) ≤ 0) := by
  unfold roundHA
  generalize hq : (2 * v.natAbs + 2 ^ 149) / (2 * 2 ^ 149) = q
  rcases lt_trichotomy v 0 with h | h | h
  · rw [Int.sign_eq_neg_one_of_neg h]; omega
  · subst h; simp
  · rw [Int.sign_eq_one_of_pos h]; omega

end Sys2Proof.Machine
end

