-- ==== Sys2Proof/Laws/State.lean ====
section
/-! SUPPORT. What each update of the state leaves in each field, so that no proof unfolds a record
update. -/

namespace Sys2Proof.Machine

/-! The state as an edge finds it. -/

@[simp] theorem atEdge_nmax (s : State) : (atEdge s).nmax = s.nmax := rfl
@[simp] theorem atEdge_mode (s : State) : (atEdge s).mode = s.mode := rfl
@[simp] theorem atEdge_variant (s : State) : (atEdge s).variant = s.variant := rfl
@[simp] theorem atEdge_gate (s : State) : (atEdge s).gate = s.gate := rfl
@[simp] theorem atEdge_kp (s : State) : (atEdge s).kp = s.kp := rfl
@[simp] theorem atEdge_ki (s : State) : (atEdge s).ki = s.ki := rfl
@[simp] theorem atEdge_kd (s : State) : (atEdge s).kd = s.kd := rfl
@[simp] theorem atEdge_mu (s : State) : (atEdge s).mu = s.mu := rfl
@[simp] theorem atEdge_len (s : State) : (atEdge s).len = s.len := rfl
@[simp] theorem atEdge_gain (s : State) : (atEdge s).gain = s.gain := rfl
@[simp] theorem atEdge_chan (s : State) : (atEdge s).chan = s.chan := rfl
@[simp] theorem atEdge_srate (s : State) : (atEdge s).srate = s.srate := rfl
@[simp] theorem atEdge_frames (s : State) : (atEdge s).frames = s.frames := rfl
@[simp] theorem atEdge_w (s : State) : (atEdge s).w = s.w := rfl
@[simp] theorem atEdge_d (s : State) : (atEdge s).d = s.d := rfl
@[simp] theorem atEdge_integral (s : State) : (atEdge s).integral = s.integral := rfl
@[simp] theorem atEdge_prevErr (s : State) : (atEdge s).prevErr = s.prevErr := rfl
@[simp] theorem atEdge_port (s : State) : (atEdge s).port = s.port := rfl
@[simp] theorem atEdge_edges (s : State) : (atEdge s).edges = s.edges.tail := rfl

/-! START's zeroing (spec 40_control.md R430). -/

@[simp] theorem zeroFilterState_nmax (s : State) : (zeroFilterState s).nmax = s.nmax := rfl
@[simp] theorem zeroFilterState_mode (s : State) : (zeroFilterState s).mode = s.mode := rfl
@[simp] theorem zeroFilterState_variant (s : State) : (zeroFilterState s).variant = s.variant := rfl
@[simp] theorem zeroFilterState_gate (s : State) : (zeroFilterState s).gate = s.gate := rfl
@[simp] theorem zeroFilterState_kp (s : State) : (zeroFilterState s).kp = s.kp := rfl
@[simp] theorem zeroFilterState_ki (s : State) : (zeroFilterState s).ki = s.ki := rfl
@[simp] theorem zeroFilterState_kd (s : State) : (zeroFilterState s).kd = s.kd := rfl
@[simp] theorem zeroFilterState_mu (s : State) : (zeroFilterState s).mu = s.mu := rfl
@[simp] theorem zeroFilterState_len (s : State) : (zeroFilterState s).len = s.len := rfl
@[simp] theorem zeroFilterState_gain (s : State) : (zeroFilterState s).gain = s.gain := rfl
@[simp] theorem zeroFilterState_chan (s : State) : (zeroFilterState s).chan = s.chan := rfl
@[simp] theorem zeroFilterState_srate (s : State) : (zeroFilterState s).srate = s.srate := rfl
@[simp] theorem zeroFilterState_frames (s : State) : (zeroFilterState s).frames = s.frames := rfl
@[simp] theorem zeroFilterState_w (s : State) : (zeroFilterState s).w = List.replicate s.nmax 0 := rfl
@[simp] theorem zeroFilterState_d (s : State) : (zeroFilterState s).d = List.replicate s.nmax 0 := rfl
@[simp] theorem zeroFilterState_integral (s : State) : (zeroFilterState s).integral = 0 := rfl
@[simp] theorem zeroFilterState_prevErr (s : State) : (zeroFilterState s).prevErr = 0 := rfl
@[simp] theorem zeroFilterState_port (s : State) : (zeroFilterState s).port = s.port := rfl
@[simp] theorem zeroFilterState_edges (s : State) : (zeroFilterState s).edges = s.edges := rfl

/-! A reset edge (spec 70_reset_and_hazards.md R1100). -/

@[simp] theorem resetCore_nmax (s : State) : (resetCore s).nmax = s.nmax := rfl
@[simp] theorem resetCore_mode (s : State) : (resetCore s).mode = .idle := rfl
@[simp] theorem resetCore_variant (s : State) : (resetCore s).variant = .lms := rfl
@[simp] theorem resetCore_gate (s : State) : (resetCore s).gate = 0 := rfl
@[simp] theorem resetCore_kp (s : State) : (resetCore s).kp = 0x3E800000 := rfl
@[simp] theorem resetCore_ki (s : State) : (resetCore s).ki = 0 := rfl
@[simp] theorem resetCore_kd (s : State) : (resetCore s).kd = 0x3D4CCCCD := rfl
@[simp] theorem resetCore_mu (s : State) : (resetCore s).mu = 0x3A83126F := rfl
@[simp] theorem resetCore_len (s : State) : (resetCore s).len = 128 := rfl
@[simp] theorem resetCore_gain (s : State) : (resetCore s).gain = 0x3F800000 := rfl
@[simp] theorem resetCore_chan (s : State) : (resetCore s).chan = 0x01000202 := rfl
@[simp] theorem resetCore_srate (s : State) : (resetCore s).srate = 48000 := rfl
@[simp] theorem resetCore_frames (s : State) : (resetCore s).frames = 1024 := rfl
@[simp] theorem resetCore_w (s : State) : (resetCore s).w = List.replicate s.nmax 0 := rfl
@[simp] theorem resetCore_d (s : State) : (resetCore s).d = List.replicate s.nmax 0 := rfl
@[simp] theorem resetCore_integral (s : State) : (resetCore s).integral = 0 := rfl
@[simp] theorem resetCore_prevErr (s : State) : (resetCore s).prevErr = 0 := rfl
@[simp] theorem resetCore_port (s : State) : (resetCore s).port = .ready := rfl
@[simp] theorem resetCore_edges (s : State) : (resetCore s).edges = s.edges := rfl

/-! The reset values (spec 10_state.md R140). -/

@[simp] theorem resetOf_nmax (n : Nat) : (State.resetOf n).nmax = n := rfl
@[simp] theorem resetOf_mode (n : Nat) : (State.resetOf n).mode = .idle := rfl
@[simp] theorem resetOf_variant (n : Nat) : (State.resetOf n).variant = .lms := rfl
@[simp] theorem resetOf_gate (n : Nat) : (State.resetOf n).gate = 0 := rfl
@[simp] theorem resetOf_kp (n : Nat) : (State.resetOf n).kp = 0x3E800000 := rfl
@[simp] theorem resetOf_ki (n : Nat) : (State.resetOf n).ki = 0 := rfl
@[simp] theorem resetOf_kd (n : Nat) : (State.resetOf n).kd = 0x3D4CCCCD := rfl
@[simp] theorem resetOf_mu (n : Nat) : (State.resetOf n).mu = 0x3A83126F := rfl
@[simp] theorem resetOf_len (n : Nat) : (State.resetOf n).len = 128 := rfl
@[simp] theorem resetOf_gain (n : Nat) : (State.resetOf n).gain = 0x3F800000 := rfl
@[simp] theorem resetOf_chan (n : Nat) : (State.resetOf n).chan = 0x01000202 := rfl
@[simp] theorem resetOf_srate (n : Nat) : (State.resetOf n).srate = 48000 := rfl
@[simp] theorem resetOf_frames (n : Nat) : (State.resetOf n).frames = 1024 := rfl
@[simp] theorem resetOf_w (n : Nat) : (State.resetOf n).w = List.replicate n 0 := rfl
@[simp] theorem resetOf_d (n : Nat) : (State.resetOf n).d = List.replicate n 0 := rfl
@[simp] theorem resetOf_integral (n : Nat) : (State.resetOf n).integral = 0 := rfl
@[simp] theorem resetOf_prevErr (n : Nat) : (State.resetOf n).prevErr = 0 := rfl
@[simp] theorem resetOf_port (n : Nat) : (State.resetOf n).port = .ready := rfl
@[simp] theorem resetOf_edges (n : Nat) : (State.resetOf n).edges = [] := rfl

/-! A register write touches configuration registers only (spec 40_control.md R420). -/

@[simp] theorem writeReg_nmax (r : Reg) (v : Word32) (s : State) : (writeReg r v s).nmax = s.nmax := by
  cases r <;> rfl
@[simp] theorem writeReg_mode (r : Reg) (v : Word32) (s : State) : (writeReg r v s).mode = s.mode := by
  cases r <;> rfl
@[simp] theorem writeReg_w (r : Reg) (v : Word32) (s : State) : (writeReg r v s).w = s.w := by
  cases r <;> rfl
@[simp] theorem writeReg_d (r : Reg) (v : Word32) (s : State) : (writeReg r v s).d = s.d := by
  cases r <;> rfl
@[simp] theorem writeReg_integral (r : Reg) (v : Word32) (s : State) : (writeReg r v s).integral = s.integral := by
  cases r <;> rfl
@[simp] theorem writeReg_prevErr (r : Reg) (v : Word32) (s : State) : (writeReg r v s).prevErr = s.prevErr := by
  cases r <;> rfl
@[simp] theorem writeReg_port (r : Reg) (v : Word32) (s : State) : (writeReg r v s).port = s.port := by
  cases r <;> rfl
@[simp] theorem writeReg_edges (r : Reg) (v : Word32) (s : State) : (writeReg r v s).edges = s.edges := by
  cases r <;> rfl

/-! The variants touch filter state only (spec 10_state.md R136). -/

@[simp] theorem pidStep_nmax (n f : Int) (s : State) : (pidStep n f s).1.nmax = s.nmax := rfl
@[simp] theorem pidStep_mode (n f : Int) (s : State) : (pidStep n f s).1.mode = s.mode := rfl
@[simp] theorem pidStep_variant (n f : Int) (s : State) : (pidStep n f s).1.variant = s.variant := rfl
@[simp] theorem pidStep_gate (n f : Int) (s : State) : (pidStep n f s).1.gate = s.gate := rfl
@[simp] theorem pidStep_kp (n f : Int) (s : State) : (pidStep n f s).1.kp = s.kp := rfl
@[simp] theorem pidStep_ki (n f : Int) (s : State) : (pidStep n f s).1.ki = s.ki := rfl
@[simp] theorem pidStep_kd (n f : Int) (s : State) : (pidStep n f s).1.kd = s.kd := rfl
@[simp] theorem pidStep_mu (n f : Int) (s : State) : (pidStep n f s).1.mu = s.mu := rfl
@[simp] theorem pidStep_len (n f : Int) (s : State) : (pidStep n f s).1.len = s.len := rfl
@[simp] theorem pidStep_gain (n f : Int) (s : State) : (pidStep n f s).1.gain = s.gain := rfl
@[simp] theorem pidStep_chan (n f : Int) (s : State) : (pidStep n f s).1.chan = s.chan := rfl
@[simp] theorem pidStep_srate (n f : Int) (s : State) : (pidStep n f s).1.srate = s.srate := rfl
@[simp] theorem pidStep_frames (n f : Int) (s : State) : (pidStep n f s).1.frames = s.frames := rfl
@[simp] theorem pidStep_w (n f : Int) (s : State) : (pidStep n f s).1.w = s.w := rfl
@[simp] theorem pidStep_d (n f : Int) (s : State) : (pidStep n f s).1.d = s.d := rfl
@[simp] theorem pidStep_port (n f : Int) (s : State) : (pidStep n f s).1.port = s.port := rfl
@[simp] theorem pidStep_edges (n f : Int) (s : State) : (pidStep n f s).1.edges = s.edges := rfl

@[simp] theorem lmsStep_nmax (n f : Int) (s : State) : (lmsStep n f s).1.nmax = s.nmax := rfl
@[simp] theorem lmsStep_mode (n f : Int) (s : State) : (lmsStep n f s).1.mode = s.mode := rfl
@[simp] theorem lmsStep_variant (n f : Int) (s : State) : (lmsStep n f s).1.variant = s.variant := rfl
@[simp] theorem lmsStep_gate (n f : Int) (s : State) : (lmsStep n f s).1.gate = s.gate := rfl
@[simp] theorem lmsStep_kp (n f : Int) (s : State) : (lmsStep n f s).1.kp = s.kp := rfl
@[simp] theorem lmsStep_ki (n f : Int) (s : State) : (lmsStep n f s).1.ki = s.ki := rfl
@[simp] theorem lmsStep_kd (n f : Int) (s : State) : (lmsStep n f s).1.kd = s.kd := rfl
@[simp] theorem lmsStep_mu (n f : Int) (s : State) : (lmsStep n f s).1.mu = s.mu := rfl
@[simp] theorem lmsStep_len (n f : Int) (s : State) : (lmsStep n f s).1.len = s.len := rfl
@[simp] theorem lmsStep_gain (n f : Int) (s : State) : (lmsStep n f s).1.gain = s.gain := rfl
@[simp] theorem lmsStep_chan (n f : Int) (s : State) : (lmsStep n f s).1.chan = s.chan := rfl
@[simp] theorem lmsStep_srate (n f : Int) (s : State) : (lmsStep n f s).1.srate = s.srate := rfl
@[simp] theorem lmsStep_frames (n f : Int) (s : State) : (lmsStep n f s).1.frames = s.frames := rfl
@[simp] theorem lmsStep_integral (n f : Int) (s : State) : (lmsStep n f s).1.integral = s.integral := rfl
@[simp] theorem lmsStep_prevErr (n f : Int) (s : State) : (lmsStep n f s).1.prevErr = s.prevErr := rfl
@[simp] theorem lmsStep_port (n f : Int) (s : State) : (lmsStep n f s).1.port = s.port := rfl
@[simp] theorem lmsStep_edges (n f : Int) (s : State) : (lmsStep n f s).1.edges = s.edges := rfl

/-! PROC's filter part leaves everything but the filter state. -/

@[simp] theorem filterSample_nmax (n f : Int) (s : State) : (filterSample n f s).1.nmax = s.nmax := by
  unfold filterSample variantStep; split <;> (try split) <;> rfl
@[simp] theorem filterSample_mode (n f : Int) (s : State) : (filterSample n f s).1.mode = s.mode := by
  unfold filterSample variantStep; split <;> (try split) <;> rfl
@[simp] theorem filterSample_variant (n f : Int) (s : State) : (filterSample n f s).1.variant = s.variant := by
  unfold filterSample variantStep; split <;> (try split) <;> rfl
@[simp] theorem filterSample_gate (n f : Int) (s : State) : (filterSample n f s).1.gate = s.gate := by
  unfold filterSample variantStep; split <;> (try split) <;> rfl
@[simp] theorem filterSample_kp (n f : Int) (s : State) : (filterSample n f s).1.kp = s.kp := by
  unfold filterSample variantStep; split <;> (try split) <;> rfl
@[simp] theorem filterSample_ki (n f : Int) (s : State) : (filterSample n f s).1.ki = s.ki := by
  unfold filterSample variantStep; split <;> (try split) <;> rfl
@[simp] theorem filterSample_kd (n f : Int) (s : State) : (filterSample n f s).1.kd = s.kd := by
  unfold filterSample variantStep; split <;> (try split) <;> rfl
@[simp] theorem filterSample_mu (n f : Int) (s : State) : (filterSample n f s).1.mu = s.mu := by
  unfold filterSample variantStep; split <;> (try split) <;> rfl
@[simp] theorem filterSample_len (n f : Int) (s : State) : (filterSample n f s).1.len = s.len := by
  unfold filterSample variantStep; split <;> (try split) <;> rfl
@[simp] theorem filterSample_gain (n f : Int) (s : State) : (filterSample n f s).1.gain = s.gain := by
  unfold filterSample variantStep; split <;> (try split) <;> rfl
@[simp] theorem filterSample_chan (n f : Int) (s : State) : (filterSample n f s).1.chan = s.chan := by
  unfold filterSample variantStep; split <;> (try split) <;> rfl
@[simp] theorem filterSample_srate (n f : Int) (s : State) : (filterSample n f s).1.srate = s.srate := by
  unfold filterSample variantStep; split <;> (try split) <;> rfl
@[simp] theorem filterSample_frames (n f : Int) (s : State) : (filterSample n f s).1.frames = s.frames := by
  unfold filterSample variantStep; split <;> (try split) <;> rfl
@[simp] theorem filterSample_port (n f : Int) (s : State) : (filterSample n f s).1.port = s.port := by
  unfold filterSample variantStep; split <;> (try split) <;> rfl
@[simp] theorem filterSample_edges (n f : Int) (s : State) : (filterSample n f s).1.edges = s.edges := by
  unfold filterSample variantStep; split <;> (try split) <;> rfl

end Sys2Proof.Machine
end

