-- ==== Sys2Proof/Laws/Step.lean ====
section
/-! SUPPORT. What a step can do, once. -/

namespace Sys2Proof.Machine

@[simp] theorem nextEdge_cons {s : State} {e : Edge} {rest : List Edge} (h : s.edges = e :: rest) :
    nextEdge s = e := by rw [nextEdge, h]; rfl

@[simp] theorem nextEdge_nil {s : State} (h : s.edges = []) : nextEdge s = quietEdge := by
  rw [nextEdge, h]; rfl

/-- Where no listed edge resets, the next edge does not. -/
theorem nextEdge_rst {s : State} (h : ∀ e ∈ s.edges, e.rst = false) : (nextEdge s).rst = false := by
  unfold nextEdge
  cases he : s.edges with
  | nil => rfl
  | cons e _ => exact h e (by simp [he])

/-- When a word is accepted, and which (spec 30_encoding.md R301). -/
theorem acceptedWord_eq_some_iff (s : State) (w : Word64) :
    acceptedWord s = some w ↔ (nextEdge s).rst = false ∧ s.port = .ready ∧
      (nextEdge s).cmdValid = true ∧ (nextEdge s).cmdData = w := by
  simp [acceptedWord, cmdReady, and_assoc, and_left_comm]

/-- An accepted word is answered: OK with a new core state, or a status and nothing else new. -/
theorem acceptWord_cases (w : Word64) (s : State) :
    (∃ (u : State) (r : Response), r.status = .ok ∧ acceptWord w s = respond r u ∧
      u.nmax = s.nmax ∧ u.edges = s.edges) ∨
    (∃ st : Status, st ≠ .ok ∧ acceptWord w s = fail st s) := by
  unfold acceptWord
  cases decode w with
  | ok i => exact exec_cases i s
  | error _ => exact .inr ⟨.illegal, by decide, rfl⟩

/-- An accepted word reads nothing of the ports and changes nothing there but the answer (spec
30_encoding.md R305). -/
theorem acceptWord_ports (w : Word64) (s : State) (p : Port) (es : List Edge) :
    ∃ (u : State) (r : Word64), acceptWord w s = .next { u with port := .busy r } ∧
      acceptWord w { s with port := p, edges := es } = .next { u with port := .busy r, edges := es } ∧
      u.nmax = s.nmax ∧ u.edges = s.edges := by
  unfold acceptWord
  cases decode w with
  | ok i => exact exec_ports i s p es
  | error _ => exact ⟨s, _, rfl, rfl, rfl, rfl⟩

/-- An edge without reset, with a response not offered yet: it is offered when the edge's `done` bit
says so (spec 30_encoding.md R302). -/
theorem step_busy {s : State} {r : Word64} (hp : s.port = .busy r) (hr : (nextEdge s).rst = false) :
    step s = .next { atEdge s with port := if (nextEdge s).done then .offering r else .busy r } := by
  have same : atEdge s = { atEdge s with port := .busy r } := by rw [← hp]; rfl
  simp only [step, edgeStep, clockEdge, hr, atEdge_port, hp, Bool.false_eq_true, if_false]
  split
  · rfl
  · exact congrArg _ same

/-- An edge without reset, with a response offered: it is gone when the host takes it (spec
30_encoding.md R302, R303). -/
theorem step_offering {s : State} {r : Word64} (hp : s.port = .offering r)
    (hr : (nextEdge s).rst = false) :
    step s = .next { atEdge s with port := if (nextEdge s).rspReady then .ready else .offering r } := by
  have same : atEdge s = { atEdge s with port := .offering r } := by rw [← hp]; rfl
  simp only [step, edgeStep, clockEdge, hr, atEdge_port, hp, Bool.false_eq_true, if_false]
  split
  · rfl
  · exact congrArg _ same

/-- An edge without reset, with the core ready and a word offered: the word is accepted (spec
30_encoding.md R301, R305). -/
theorem step_accept {s : State} (hp : s.port = .ready) (hr : (nextEdge s).rst = false)
    (hv : (nextEdge s).cmdValid = true) : step s = acceptWord (nextEdge s).cmdData (atEdge s) := by
  unfold step edgeStep clockEdge
  rw [hr, atEdge_port, hp, hv]
  rfl

/-- What the next edge does: reset; or the port waits, offers or is freed; or the core stays as it is;
or a word is accepted. -/
theorem step_cases {s t : State} (h : step s = .next t) :
    ((nextEdge s).rst = true ∧ t = resetCore (atEdge s)) ∨
    ((nextEdge s).rst = false ∧ s.port = .ready ∧ (nextEdge s).cmdValid = false ∧ t = atEdge s) ∨
    ((nextEdge s).rst = false ∧ s.port = .ready ∧ (nextEdge s).cmdValid = true ∧
      acceptWord (nextEdge s).cmdData (atEdge s) = .next t) ∨
    ((nextEdge s).rst = false ∧ ∃ r, s.port = .busy r ∧
      t = if (nextEdge s).done then { atEdge s with port := .offering r } else atEdge s) ∨
    ((nextEdge s).rst = false ∧ ∃ r, s.port = .offering r ∧
      t = if (nextEdge s).rspReady then { atEdge s with port := .ready } else atEdge s) := by
  unfold step edgeStep at h
  split at h
  case isTrue hr => cases h; exact .inl ⟨hr, rfl⟩
  case isFalse hr =>
    have hr : (nextEdge s).rst = false := by simpa using hr
    unfold clockEdge at h
    rw [atEdge_port] at h
    split at h
    case h_1 hp =>
      split at h
      case isTrue hv => exact .inr (.inr (.inl ⟨hr, hp, hv, h⟩))
      case isFalse hv => cases h; exact .inr (.inl ⟨hr, hp, by simpa using hv, rfl⟩)
    case h_2 r hp => cases h; exact .inr (.inr (.inr (.inl ⟨hr, r, hp, rfl⟩)))
    case h_3 r hp => cases h; exact .inr (.inr (.inr (.inr ⟨hr, r, hp, rfl⟩)))

end Sys2Proof.Machine
end

