-- ==== Sys2Proof/Tests/Slice0.lean ====
section
/-! SUPPORT. Tests and witnesses. Every expected value is the spec's: words from 30_encoding.md R341,
responses and states from 95_test_vectors.md (the section is named), or the rule named. A theorem
`witness_X` shows that the hypotheses of `Obligations.X` can be met. -/

namespace Sys2Proof.Tests

open Sys2Proof.Machine

/-- The reset state of a core of four elements, for short lists. -/
def idle4 : State := State.resetOf 4

/-- An open session of four elements, of the variant and gate word given. -/
def session (v : Variant) (gate : Word32) : State :=
  { idle4 with mode := .running, variant := v, gate := gate, len := 4 }

/-- The answer to a command. -/
def answer (i : Instr) (s : State) : Option Word64 := (transact (encode i) s).map Prod.snd

/-- The state after a command, its answer taken. -/
def after (i : Instr) (s : State) : State := ((transact (encode i) s).map Prod.fst).getD s

/-! WellFormed: an operand outside its range is refused (30_encoding.md R340). -/

theorem test_wellFormed_noise_too_big : Instr.wellFormed (.proc 32768 0) = false := by decide
theorem test_wellFormed_fb_too_small : Instr.wellFormed (.proc 0 (-32769)) = false := by decide
theorem test_wellFormed_extremes : Instr.wellFormed (.proc (-32768) 32767) = true := by decide

/-! Decoding: the words of 95_test_vectors.md, bit by bit. -/

theorem test_decode_nop : decode 0x0000000000000000 = .ok .nop := by decide
theorem test_decode_cfgRd : decode 0x1000000B00000000 = .ok (.cfgRd 0x000B) := by decide
theorem test_decode_cfgWr : decode 0x2000000B02000202 = .ok (.cfgWr 0x000B 0x02000202) := by decide
theorem test_decode_start : decode 0x3000000000000000 = .ok .start := by decide
theorem test_decode_stop : decode 0x4000000000000000 = .ok .stop := by decide
theorem test_decode_proc : decode 0x50000000FE0C02BC = .ok (.proc (-500) 700) := by decide
theorem test_decode_procNoin : decode 0x6000000000000000 = .ok .procNoin := by decide
theorem test_decode_rdState : decode 0x7100000300000000 = .ok (.rdState 1 3) := by decide

/-- The illegal words of 95_test_vectors.md section 4. -/
theorem test_decode_illegal :
    decode 0x8000000000000000 = .error .reservedOpcode ∧
    decode 0xF000000000000000 = .error .reservedOpcode ∧
    decode 0x0000000000000001 = .error .nonzeroField ∧
    decode 0x0100000000000000 = .error .nonzeroField ∧
    decode 0x3000000000000001 = .error .nonzeroField ∧
    decode 0x5000000100000000 = .error .nonzeroField ∧
    decode 0x5001000000000000 = .error .nonzeroField ∧
    decode 0x1000000000010000 = .error .nonzeroField ∧
    decode 0x7001000000000000 = .error .nonzeroField ∧
    decode 0x2100000000000000 = .error .nonzeroField := by decide

theorem test_encode_proc : encode (.proc (-20000) 20000) = 0x50000000B1E04E20 := by decide
theorem test_decodeTableWord : decodeTableWord 64 0x7300FFFF00000000 = some (.rdState 3 0xFFFF) := by
  decide

/-! Commands: one step each. -/

/-- 40_control.md R400. -/
theorem test_nop : answer .nop idle4 = some 0 ∧ after .nop idle4 = idle4 := by decide +kernel

/-- Section 4. -/
theorem test_cfgRd_mu : answer (.cfgRd 0x0008) idle4 = some 0x3A83126F00000000 := by decide +kernel
theorem test_cfgRd_unmapped : answer (.cfgRd 0x000E) idle4 = some 0x0000000005000000 := by
  decide +kernel

/-- Section 4: threshold 65535, ADAPT 1; then a reserved bit. -/
theorem test_cfgWr_gate : after (.cfgWr 0x0004 0x1FFFF) idle4 = { idle4 with gate := 0x1FFFF } := by
  decide +kernel
theorem test_cfgWr_gate_reserved :
    answer (.cfgWr 0x0004 0x20000) idle4 = some 0x0000000007000000 := by decide +kernel

/-- Section 4; the tap of a session before is zeroed (40_control.md R430). -/
theorem test_start : after .start { idle4 with w := [1, 2, 3, 4] } = { idle4 with mode := .running } := by
  decide +kernel
theorem test_start_running : answer .start (session .lms 0) = some 0x0000000004000000 := by
  decide +kernel

/-- Section 4; the filter state is kept (40_control.md R440). -/
theorem test_stop : after .stop { session .pid 0 with prevErr := 0x42C80000 } =
    { session .pid 0 with prevErr := 0x42C80000, mode := .idle } := by decide +kernel
theorem test_stop_idle : answer .stop idle4 = some 0x0000000002000000 := by decide +kernel

/-- Section 5.1, rows 2 and 6 (PID), and section 7, rows 1 and 3 (DIRECT). -/
theorem test_proc_pid_direct :
    answer (.proc 300 100) (session .pid 0) = some 0xC27000000001003C ∧
    (after (.proc 300 100) (session .pid 0)).prevErr = 0xC3480000 ∧
    answer (.proc 32767 (-32768)) { session .pid 0 with prevErr := 0x44960000 } =
      some 0xC69A110000014D09 ∧
    answer (.proc 300 100) { session .direct 200 with gain := 0x40000000 } =
      some 0xC3C8000000010190 ∧
    answer (.proc (-20000) 20000) { session .direct 200 with gain := 0x40000000 } =
      some 0x479C400000018001 := by decide +kernel

/-- Section 1.3, t = 3 (LMS). -/
theorem test_proc_lms :
    let s := { session .lms 0x00010000 with
      w := [0x43FA0000, 0, 0, 0], d := [0, 0, 0x447A0000, 0] }
    answer (.proc 1000 0) s = some 0x48F4240000018001 ∧
    after (.proc 1000 0) s = { s with
      w := [0xC8F3E581, 0, 0, 0xC8F42401], d := [0x447A0000, 0, 0, 0x447A0000] } := by
  decide +kernel

/-- Section 8.1. -/
theorem test_procNoin : answer .procNoin (session .lms 0x10000) = some 0 ∧
    after .procNoin (session .lms 0x10000) = session .lms 0x10000 := by decide +kernel
theorem test_procNoin_idle : answer .procNoin idle4 = some 0x0000000002000000 := by decide +kernel

/-- Section 8. -/
theorem test_rdState_d :
    answer (.rdState 1 0) { session .lms 0 with len := 2, d := [0x40E00000, 0, 0, 0] } =
      some 0x40E0000000000000 := by decide +kernel
theorem test_rdState_bad_index :
    answer (.rdState 0 2) { session .lms 0 with len := 2 } = some 0x0000000005000000 ∧
    answer (.rdState 3 0xFFFF) (session .lms 0) = some 0x0000000005000000 ∧
    answer (.rdState 4 0) (session .lms 0) = some 0x0000000005000000 := by decide +kernel

/-! Parts. -/

/-- Section 2, the whole table. -/
theorem test_limit :
    ([0x00000000, 0x80000000, 0x00000001, 0x3EFFFFFF, 0x3F000000, 0xBF000000, 0x3FC00000, 0x40200000,
      0xC0200000, 0x42C8CCCD, 0xC2C93333, 0x46FFFD00, 0x46FFFE00, 0x46FFFF00, 0x471C4000] ++
     [0xC6FFFD00, 0xC6FFFE00, 0xC6FFFEFB, 0xC6FFFF00, 0xC7000000, 0xF149F2CA, 0x7F800000, 0xFF800000,
      0x7FC00000, 0xFFFFFFFF] : List F32).map limit =
    [0, 0, 0, 0, -1, 1, -2, -3, 3, -100, 101, -32767, -32767, -32767, -32767] ++
    [32767, 32767, 32767, 32767, 32767, 32767, -32767, 32767, 0, 0] := by decide +kernel

/-- Section 3, the gate at its boundaries. -/
theorem test_gate :
    gateOpen (session .direct 500) 500 = false ∧ gateOpen (session .direct 500) (-500) = false ∧
    gateOpen (session .direct 500) 501 = true ∧ gateOpen (session .direct 500) (-501) = true ∧
    gateOpen (session .direct 32767) (-32768) = true ∧
    gateOpen (session .direct 32768) (-32768) = false := by decide +kernel

/-- Sections 1.3 and 7: a product that is rounded, one that is an invalid operation, and a negative
zero. -/
theorem test_mul :
    f32Mul 0x3A83126F (i2f (-500000)) = 0xC3FA0001 ∧ f32Mul 0x7F800000 0x00000000 = 0x7FC00000 ∧
    f32Mul 0xBF800000 0x00000000 = 0x80000000 := by decide +kernel

/-- 00_scope.md R24: the least magnitude that rounds to infinity, and the greatest finite one. -/
theorem test_overflow :
    rne false (2 ^ 128 - 2 ^ 103) 1 = 0x7F800000 ∧ rne true (2 ^ 128 - 2 ^ 103 - 1) 1 = 0xFF7FFFFF := by
  decide +kernel

/-- 00_scope.md R24: subnormals are kept, and half the least one ties to zero with its sign. -/
theorem test_subnormal :
    f32Mul 0x00000003 0x3F000000 = 0x00000002 ∧ f32Mul 0x80000001 0x3F000000 = 0x80000000 := by
  decide +kernel

/-- Section 9, P4 call 1 and call 3. -/
theorem test_frame :
    let s := { session .direct 200 with gain := 0x40000000 }
    processFrame 3 (some [300, 100, 0, 0, -20000, 20000]) s =
      some ⟨s, [400, 400, 0, 0, -32767, -32767], .cont⟩ ∧
    processFrame 3 (some [300, 100, 0, 0, -20000, 20000]) { s with mode := .idle } =
      some ⟨{ s with mode := .idle }, [0, 0, 0, 0, 0, 0], .cont⟩ := by decide +kernel

/-- Section 9: lines of P1 to P4, as text. -/
theorem test_assemble :
    assemble ⟨0x01000202, [300, 100, 0, 0]⟩
      ("CFG_WRF MU, 0.001\nSET_GATE 0, ADAPT ; always adapt\nPROC -500, 700\n" ++
        "RD_STATE INTEGRAL\nRD_W 3\nFRAME 2").toList =
      some [.cfgWr 0x0008 0x3A83126F, .cfgWr 0x0004 0x00010000, .proc (-500) 700, .rdState 2 0,
        .rdState 0 3, .proc 300 100, .proc 0 0] ∧
    assemble ⟨0x01000202, []⟩ "PROC 32768, 0".toList = none := by decide +kernel

/-- 30_encoding.md R301, R302: the word offered at the next edge is accepted there, and its response
is offered at an edge after that one. -/
theorem test_withFetchWord :
    ∃ t, step (idle4.withFetchWord 64 0x3000000000000000) = .next t ∧ t.mode = .running ∧
      rspOffered t = none ∧ cmdReady t = false := ⟨_, rfl, by decide⟩

/-- 30_encoding.md R302: with nothing more listed, the response of that word is offered, and held. -/
theorem test_response_comes :
    ∃ t, runEdges 2 (idle4.withFetchWord 64 0x1000000000000000) = some (t, [0x1000000000000000], []) ∧
      rspOffered t = some 0x414E430100000000 ∧
      ∃ u, step t = .next u ∧ rspOffered u = some 0x414E430100000000 :=
  ⟨_, rfl, by decide, _, rfl, by decide⟩

/-! Witnesses. -/

/-- An edge at which the host drives nothing and a response is held back. -/
def waitEdge : Edge := { quietEdge with done := false }

/-- An edge at which the host takes the response. -/
def takeEdge : Edge := ⟨false, false, 0, true, false⟩

/-- An edge with `rst = 1` at which a command is offered too. -/
def resetEdge : Edge := ⟨true, true, 0x3000000000000000, false, false⟩

theorem witness_EncodedCommandDecodesToItself :
    Instr.wellFormed (.proc 32767 (-32768)) = true := by decide

theorem witness_DecodedWordIsItsCommandsOnlyWord :
    decode 0x500000007FFF8000 = .ok (.proc 32767 (-32768)) := by decide

theorem witness_DecoderFollowsTheMatchTable :
    (∃ row ∈ opcodeTable, (0x7F00FFFF00000000 : Word64) &&& row.mask = row.pattern) ∧
    (∀ row ∈ opcodeTable, (0x7F00FFFF00000001 : Word64) &&& row.mask ≠ row.pattern) ∧
    decode 0x7FFFFFFFFFFFFFFF = .error .nonzeroField ∧
    decode 0x8000000000000000 = .error .reservedOpcode := by decide

theorem witness_NoWordMatchesTwoOpcodePatterns :
    ∃ r ∈ opcodeTable, ∃ q ∈ opcodeTable, (0x5000000012345678 : Word64) &&& r.mask = r.pattern ∧
      (0x5000000012345678 : Word64) &&& q.mask = q.pattern := by decide

theorem witness_ByteTransportCarriesTheWord : byteOfWord 0x8000000000000000 7 = 0x80 := by decide

theorem witness_ReadyEdgeRunsTheDecodedCommand :
    let s := { idle4 with edges := [offerEdge 0x3000000000000000] }
    s.edges = offerEdge 0x3000000000000000 :: [] ∧ s.port = .ready ∧
      (offerEdge 0x3000000000000000).rst = false ∧ (offerEdge 0x3000000000000000).cmdValid = true ∧
      decode (offerEdge 0x3000000000000000).cmdData = .ok .start := by decide

theorem witness_IllegalWordIsAnsweredWithoutEffect :
    let s := { idle4 with edges := [offerEdge 0x9000000000000000] }
    s.edges = offerEdge 0x9000000000000000 :: [] ∧ s.port = .ready ∧
      (offerEdge 0x9000000000000000).rst = false ∧ (offerEdge 0x9000000000000000).cmdValid = true ∧
      decode (offerEdge 0x9000000000000000).cmdData = .error .reservedOpcode := by decide

theorem witness_CmdReadyFollowsTheHandshake :
    (∃ t, step { idle4 with edges := [resetEdge] } = .next t) ∧
    (∃ t, step { idle4 with edges := [offerEdge 0] } = .next t) ∧
    (∃ t, step { idle4 with port := .offering 5, edges := [takeEdge] } = .next t) ∧
    ∃ t, step idle4 = .next t := ⟨⟨_, rfl⟩, ⟨_, rfl⟩, ⟨_, rfl⟩, ⟨_, rfl⟩⟩

theorem witness_PendingResponseIsHeldUntilTaken :
    let s := { idle4 with port := .offering 5, edges := [offerEdge 0] }
    (∃ t, step s = .next t) ∧ (nextEdge s).rst = false ∧ takenWord s = none ∧
      rspPending s = some 5 ∧ rspOffered s = some 5 := ⟨⟨_, rfl⟩, by decide⟩

/-- Each clause: a word accepted, a response offered or not yet, taken or left. -/
theorem witness_HandshakePhaseFollowsTheEdge :
    (∀ e ∈ [offerEdge 0, quietEdge, waitEdge, takeEdge], e.rst = false) ∧
      idle4.port = .ready ∧ (offerEdge 0).cmdValid = true ∧ quietEdge.done = true ∧
      waitEdge.done = false ∧ takeEdge.rspReady = true ∧ waitEdge.rspReady = false ∧
      { idle4 with port := .busy 5, edges := [quietEdge] }.edges = quietEdge :: [] ∧
      { idle4 with port := .offering 5, edges := [takeEdge] }.edges = takeEdge :: [] := by decide

/-- A latency of two edges, and the least one, one edge. -/
theorem witness_ResponseIsOfferedAfterItsLatency :
    let d := quietEdge
    let s := { idle4 with edges := offerEdge 0 :: ([waitEdge] ++ d :: [takeEdge]) }
    s.port = .ready ∧ s.edges = offerEdge 0 :: ([waitEdge] ++ d :: [takeEdge]) ∧
      (offerEdge 0).rst = false ∧ (offerEdge 0).cmdValid = true ∧
      (∀ x ∈ [waitEdge], x.rst = false ∧ x.done = false) ∧
      (∀ x ∈ ([] : List Edge), x.rst = false ∧ x.done = false) ∧ d.rst = false ∧ d.done = true := by
  decide

/-- A response owed, and a word accepted, each with an edge listed that holds the response back. -/
theorem witness_EveryAcceptedCommandIsAnswered :
    let s := { idle4 with port := .busy 5, edges := [waitEdge] }
    let t := { idle4 with edges := [offerEdge 0, waitEdge] }
    (∀ e ∈ s.edges, e.rst = false) ∧ s.port = .busy 5 ∧
      (∀ e ∈ t.edges, e.rst = false) ∧ acceptedWord t = some 0 := by decide

theorem witness_ClockedRunIsItsTransactionSequence :
    let s := { idle4 with edges := [offerEdge 0, quietEdge, takeEdge] }
    s.port = .ready ∧ ∀ e ∈ s.edges, e.rst = false := by decide

theorem witness_NothingHappensWithoutACommand :
    let s := { idle4 with port := .offering 5, edges := [quietEdge, takeEdge] }
    (∀ e ∈ s.edges, e.rst = false ∧ e.cmdValid = false) ∧
      (∀ e ∈ idle4.edges, e.rst = false ∧ e.cmdValid = false) ∧ idle4.port = .ready := by decide

theorem witness_ResetEdgeLeavesTheResetState :
    let s := { session .lms 0 with port := .busy 5, edges := [resetEdge] }
    s.edges = resetEdge :: [] ∧ resetEdge.rst = true := by decide

theorem witness_CfgRdAnswersTheRegister : idle4.mode = .idle ∧ (session .pid 0).mode = .running ∧
    (session .pid 0).variant = .pid ∧ (session .lms 0).variant = .lms ∧
    (session .direct 0).variant = .direct ∧ 0x000D < (0x000E : BitVec 16).toNat := by decide

/-- Each clause at the ends of its range, and nothing under two of them. -/
theorem witness_CfgWrWritesOrRefuses :
    idle4.mode = .idle ∧ (session .pid 0).mode = .running ∧
    0x000D < (0x000E : BitVec 16).toNat ∧ (0x0002 : BitVec 16).toNat ≤ 0x0002 ∧
    ¬(0x0003 : BitVec 16).toNat ≤ 0x0002 ∧
    3 ≤ (3 : Word32).toNat ∧ ¬3 ≤ (2 : Word32).toNat ∧
    (0x1FFFF : Word32).toNat < 2 ^ 17 ∧ 2 ^ 17 ≤ (0x20000 : Word32).toNat ∧
    (1 ≤ (1 : Word32).toNat ∧ (1 : Word32).toNat ≤ idle4.nmax) ∧
    (1 ≤ (4 : Word32).toNat ∧ (4 : Word32).toNat ≤ idle4.nmax) ∧
    ((0 : Word32).toNat = 0 ∨ idle4.nmax < (0 : Word32).toNat) ∧
    ((5 : Word32).toNat = 0 ∨ idle4.nmax < (5 : Word32).toNat) ∧
    ((0x01000202 : Word32) = (0x01 : BitVec 8) ++ ((0x00 : BitVec 8) ++ ((0x02 : BitVec 8) ++ (0x02 : BitVec 8)))) ∧
    (1 ≤ (2 : BitVec 8).toNat ∧ 1 ≤ (2 : BitVec 8).toNat ∧ (0 : BitVec 8).toNat < (2 : BitVec 8).toNat ∧
      (1 : BitVec 8).toNat < (2 : BitVec 8).toNat) ∧
    ¬(1 ≤ (2 : BitVec 8).toNat ∧ 1 ≤ (2 : BitVec 8).toNat ∧ (0 : BitVec 8).toNat < (2 : BitVec 8).toNat ∧
      (2 : BitVec 8).toNat < (2 : BitVec 8).toNat) := by decide

theorem witness_AcceptedValueReadsBack :
    ∃ t u u', exec (.cfgWr 0x0009 4) idle4 = .next t ∧ t.port = .busy 0 ∧ rspStatus 0 = 0 ∧
      (0x0008 : BitVec 16) ≠ 0x0009 ∧ exec (.cfgRd 0x0008) idle4 = .next u ∧
      exec (.cfgRd 0x0008) t = .next u' :=
  ⟨_, _, _, rfl, by decide, by decide, by decide, rfl, rfl⟩

theorem witness_StartOpensASession : idle4.mode = .idle ∧ (session .pid 0).mode = .running := by decide

theorem witness_StopClosesTheSession : (session .pid 0).mode = .running ∧ idle4.mode = .idle := by decide

theorem witness_ConfigurationIsFixedInASession :
    let s := { session .pid 0 with edges := [offerEdge 0x2000000500000000] }
    (∃ t, step s = .next t) ∧ s.mode = .running ∧ (nextEdge s).rst = false ∧ Reg.kp ≠ .status :=
  ⟨⟨_, rfl⟩, by decide⟩

theorem witness_OnlyStartStopAndResetChangeMode :
    ∃ t, step { idle4 with edges := [offerEdge 0x3000000000000000] } = .next t ∧
      t.mode ≠ idle4.mode := ⟨_, rfl, by decide⟩

theorem witness_FailedCommandChangesNothing :
    ∃ t, acceptWord 0x4000000000000000 idle4 = .next t ∧ t.port = .busy 0x0000000002000000 ∧
      rspStatus 0x0000000002000000 ≠ 0 := ⟨_, rfl, by decide, by decide⟩

theorem witness_FirstFailingCheckIsReported :
    (∃ t r, transact 0x2000000900000000 idle4 = some (t, r)) ∧ idle4.mode = .idle ∧
    decode 0x2000000900000000 = .ok (.cfgWr 0x0009 0) ∧ 0x0009 = regIndex .len ∧
    readOnlyReg .len = false ∧ legalValue idle4.nmax .len 0 = false ∧
    (∃ t r, transact 0x7900000000000000 (session .pid 0) = some (t, r)) ∧
    (session .pid 0).mode = .running ∧ decode 0x7900000000000000 = .ok (.rdState 9 0) ∧
    4 ≤ (9 : BitVec 4).toNat ∧
    decode 0x5000000000010002 = .ok (.proc 1 2) ∧ decode 0x6000000000000000 = .ok .procNoin ∧
    decode 0x4000000000000000 = .ok .stop ∧ decode 0x3000000000000000 = .ok .start ∧
    decode 0x1000FFFF00000000 = .ok (.cfgRd 0xFFFF) ∧ decode 0x9000000000000000 = .error .reservedOpcode :=
  ⟨⟨_, _, rfl⟩, by decide, by decide, by decide, by decide, by decide, ⟨_, _, rfl⟩, by decide⟩

theorem witness_ResponseFieldsAreZeroWhereUnused :
    (∃ t r, transact 0x4000000000000000 idle4 = some (t, r) ∧ rspStatus r ≠ 0) ∧
    (∀ n f, decode 0x4000000000000000 ≠ .ok (.proc n f)) ∧
    (∀ idx, decode 0x4000000000000000 ≠ .ok (.cfgRd idx)) ∧
    ∀ sel idx, decode 0x4000000000000000 ≠ .ok (.rdState sel idx) := by
  have h : decode 0x4000000000000000 = .ok .stop := by decide
  rw [h]
  exact ⟨⟨_, _, rfl, by decide⟩, nofun, nofun, nofun⟩

theorem witness_GateOpensAboveTheThreshold : (session .direct 500).mode = .running := by decide

theorem witness_SilentSampleIsSilence :
    (session .pid 500).mode = .running ∧
    ((-500 : Int).natAbs ≤ ((session .pid 500).gate.extractLsb' 0 16).toNat ∧
      (session .pid 500).gate.getLsbD 16 = false) ∧
    ((-500 : Int).natAbs ≤ ((session .pid 0x101F4).gate.extractLsb' 0 16).toNat ∧
      (session .pid 0x101F4).gate.getLsbD 16 = true) := by decide

/-- An active sample, and an inactive one under ADAPT. -/
theorem witness_ProcRunsThePidStep :
    (session .pid 500).mode = .running ∧ (session .pid 500).variant = .pid ∧
    ((session .pid 500).gate.extractLsb' 0 16).toNat < (501 : Int).natAbs ∧
    (session .pid 0x101F4).gate.getLsbD 16 = true := by decide

theorem witness_ProcRunsTheLmsStep :
    let s := session .lms 0
    s.mode = .running ∧ s.variant = .lms ∧ (s.gate.extractLsb' 0 16).toNat < (-1 : Int).natAbs ∧
    s.len.toNat ≤ s.w.length ∧ s.len.toNat ≤ s.d.length ∧ 0 < s.len.toNat ∧ 3 < s.len.toNat ∧
    s.len.toNat ≤ 4 := by decide

theorem witness_ProcRunsTheDirectStep :
    (session .direct 0x10000).mode = .running ∧ (session .direct 0x10000).variant = .direct ∧
    (session .direct 0x10000).gate.getLsbD 16 = true := by decide

theorem witness_ProcTouchesItsVariantsStateOnly :
    (∃ t, exec (.proc 5 6) (session .lms 0) = .next t) ∧ (session .pid 0).variant ≠ .lms ∧
      (session .lms 0).variant ≠ .pid := ⟨⟨_, rfl⟩, by decide⟩

/-- 32766.5, -32766.5, the greatest value below 32766.5, 0.5 (a tie), infinities and a NaN. -/
theorem witness_LimiterNegatesTheRoundedCorrection :
    (f32IsFinite 0x46FFFD00 = true ∧ 65533 * 2 ^ 149 ≤ 2 * f32Scaled 0x46FFFD00) ∧
    (f32IsFinite 0xC6FFFD00 = true ∧ 2 * f32Scaled 0xC6FFFD00 ≤ -(65533 * 2 ^ 149)) ∧
    (f32IsFinite 0x46FFFCFF = true ∧ 2 * f32Scaled 0x46FFFCFF < 65533 * 2 ^ 149 ∧
      -(65533 * 2 ^ 149) < 2 * f32Scaled 0x46FFFCFF) ∧
    (2 * (-1 * 2 ^ 149 + f32Scaled 0x3F000000)).natAbs = ((2 : Int) ^ 149).natAbs ∧
    f32IsInf 0xFF800000 = true ∧ f32IsInf 0x7F800000 = true ∧ f32IsNaN 0xFFFFFFFF = true := by
  decide +kernel

theorem witness_OutputSampleStaysInRange :
    ∃ t, exec (.proc 300 100) (session .pid 0) = .next t ∧ t.port = .busy 0xC27000000001003C :=
  ⟨_, rfl, by decide +kernel⟩

theorem witness_ProcNoinIsSilent : (session .lms 0).mode = .running ∧ idle4.mode = .idle := by decide

theorem witness_RdStateAnswersTheElement :
    (session .lms 0).mode = .running ∧ idle4.mode = .idle ∧
    (3 < (session .lms 0).len.toNat ∧ (session .lms 0).w[3]? = some 0 ∧ (session .lms 0).d[3]? = some 0) ∧
    ((1 : BitVec 4).toNat ≤ 1 ∧ (session .lms 0).len.toNat ≤ (4 : BitVec 16).toNat) ∧
    (1 : BitVec 16) ≠ 0 ∧ 4 ≤ (4 : BitVec 4).toNat := by decide

theorem witness_ReadingCommandsChangeNothing :
    ∃ t, exec (.rdState 3 0) (session .pid 0) = .next t := ⟨_, rfl⟩

theorem witness_NanResultsAreCanonical :
    f32IsNaN (f32Add 0x7F800000 0xFF800000) = true ∧ f32IsNaN (f32Sub 0x7F800000 0x7F800000) = true ∧
    f32IsNaN (f32Mul 0x7F800000 0x00000000) = true ∧ f32IsNaN 0xFFFFFFFF = true := by decide +kernel

theorem witness_SampleConversionIsExact : (-32768 : Int) ≤ -32768 ∧ (32767 : Int) ≤ 32767 := by decide

theorem witness_IntegerDifferencesAreExact :
    (65535 : Int).natAbs ≤ 65535 ∧ (-65535 : Int).natAbs ≤ 65535 := by decide

/-- A rounded sum and difference, and a sum and a difference that overflow. -/
theorem witness_SumAndDifferenceAreCorrectlyRounded :
    (f32IsFinite 0x4B800000 = true ∧ f32IsFinite 0x3F800000 = true ∧
      f32Scaled 0x4B800000 + f32Scaled 0x3F800000 ≠ 0 ∧
      f32Scaled 0x4B800000 - f32Scaled 0x3F800000 ≠ 0) ∧
    (f32IsFinite 0x7F7FFFFF = true ∧ f32IsFinite 0xFF7FFFFF = true ∧
      f32Scaled 0x7F7FFFFF + f32Scaled 0x7F7FFFFF ≠ 0 ∧
      f32IsInf (f32Add 0x7F7FFFFF 0x7F7FFFFF) = true ∧
      f32Scaled 0x7F7FFFFF - f32Scaled 0xFF7FFFFF ≠ 0 ∧
      f32IsInf (f32Sub 0x7F7FFFFF 0xFF7FFFFF) = true) := by decide +kernel

/-- A rounded product and one that is lost below the least subnormal. -/
theorem witness_ProductIsCorrectlyRounded :
    (f32IsFinite 0x3A83126F = true ∧ f32IsFinite 0xC8F42400 = true ∧
      f32Scaled 0x3A83126F * f32Scaled 0xC8F42400 ≠ 0) ∧
    (f32IsFinite 0x00000001 = true ∧ f32Scaled 0x00000001 * f32Scaled 0x00000001 ≠ 0 ∧
      f32IsFinite (f32Mul 0x00000001 0x00000001) = true) := by decide +kernel

theorem witness_InfinitiesAndZerosFollowTheRules :
    (f32IsInf 0x7F800000 = true ∧ f32IsInf 0xFF800000 = true ∧
      f32Sign 0x7F800000 ≠ f32Sign 0xFF800000 ∧ f32Sign 0x7F800000 = f32Sign 0x7F800000) ∧
    (f32IsFinite 0xC3480000 = true ∧ f32IsNaN 0xC3480000 = false ∧ f32IsZero 0xC3480000 = false) ∧
    (f32Scaled 0xC3480000 + f32Scaled 0x43480000 = 0 ∧ f32Scaled 0x80000000 + f32Scaled 0x80000000 = 0) ∧
    (f32Scaled 0xC3480000 - f32Scaled 0xC3480000 = 0 ∧ f32Scaled 0x80000000 - f32Scaled 0x00000000 = 0) ∧
    f32IsZero 0x80000000 = true ∧ f32IsFinite 0x80000000 = true := by decide +kernel

theorem witness_ResetStateMeetsTheInvariant : 128 ≤ 128 ∧ 128 ≤ 65535 ∧ 65535 ≤ 65535 := by decide

/-- A state in a session, with a filter state that is not zero and a response held, that meets the
invariant; and it steps. -/
def live : State :=
  { State.resetOf 128 with
    mode := .running, len := 1, w := 0x3CAC0831 :: List.replicate 127 0,
    d := 0x40E00000 :: List.replicate 127 0, port := .offering 0x3F8000000001FFFF }

theorem witness_EveryStepKeepsTheInvariant : live.Inv ∧ ∃ t, step live = .next t := by
  refine ⟨?_, _, rfl⟩
  have hr : ∀ {k : Nat} {x : F32}, x ∈ List.replicate k 0#32 → x = 0 :=
    fun h => (List.mem_replicate.1 h).2
  have hw : ∀ x ∈ live.w, x = 0x3CAC0831 ∨ x = 0 := fun x h => (List.mem_cons.1 h).imp_right hr
  have hd : ∀ x ∈ live.d, x = 0x40E00000 ∨ x = 0 := fun x h => (List.mem_cons.1 h).imp_right hr
  refine
    { nmaxRange := by decide, wLength := by simp [live, State.resetOf],
      dLength := by simp [live, State.resetOf], gateLegal := by decide, lenLegal := by decide,
      chanLegal := by decide, dSamples := ?_, prevErrInt := ⟨0, by decide, rfl⟩, tapsNotNegZero := ?_,
      tailZero := fun _ => ⟨fun _ h => hr h, fun _ h => hr h⟩, unusedZero := ?_, portLegal := ?_ }
  · intro x hx
    rcases hd x hx with rfl | rfl
    · exact ⟨7, by decide, by decide +kernel⟩
    · exact ⟨0, by decide, rfl⟩
  · intro x hx
    rcases hw x hx with rfl | rfl <;> decide
  · exact fun _ => ⟨fun h => absurd rfl h, fun _ => ⟨rfl, rfl⟩⟩
  · intro r hr
    obtain rfl : (0x3F8000000001FFFF : Word64) = r := by simpa [live, rspPending] using hr
    exact ⟨by decide, by decide, by decide, by decide⟩

/-- Two states that differ in elements no command can read: from N on in a session, all of them when
none is open. -/
theorem witness_UnreadableFilterStateNeverShows :
    sameVisible { session .lms 0 with len := 2, w := [1, 2, 3, 4] }
      { session .lms 0 with len := 2, w := [1, 2, 5, 6] } ∧
    sameVisible { idle4 with integral := 1 } { idle4 with integral := 2 } ∧
    (∃ t, step { session .lms 0 with len := 2, w := [1, 2, 3, 4] } = .next t) ∧
    ∃ t, step { session .lms 0 with len := 2, w := [1, 2, 5, 6] } = .next t := by
  refine ⟨⟨rfl, by decide, fun _ => by decide⟩, ⟨rfl, by decide, fun h => ?_⟩, ⟨_, rfl⟩, ⟨_, rfl⟩⟩
  exact absurd h (by decide)

theorem witness_ProcessCallIsItsCommandSequence :
    inputOk 0x01000202 2 (some [-32768, 32767, 0, 0]) = true ∧ inputOk 0x01000202 2 none = true := by
  decide

theorem witness_EveryOutputChannelGetsTheFramesSample :
    (1 < [7, 8].length ∧ 2 < 3) ∧ inputOk 0x01000202 2 (some [-32768, 32767, 0, 0]) = true ∧
      inputOk 0x01000202 2 none = true ∧ 1 < ((0x01000202 : Word32).extractLsb' 8 8).toNat := by decide

theorem witness_AbsentInputGivesSilence : (session .lms 0x10000).port = .ready := by decide

theorem witness_ZeroSamplesGiveZeros :
    (session .lms 0).port = .ready ∧ (session .lms 0).gate.getLsbD 16 = false := by decide

theorem witness_PseudoCommandsExpandAsGiven :
    65535 ≤ 65535 ∧ 255 ≤ 255 ∧ 0 < 1 ∧ inputOk 0x01000202 2 (some [-32768, 32767, 0, 0]) = true := by
  decide

end Sys2Proof.Tests
end

namespace Sys2Proof.Machine

/-! # The binary32 primitives (spec 00_scope.md section 7)

The rounding `rneInt` is tied to `correctlyRounded` once, for any denominator; sums, differences and
products are uses of it. -/

/-! ## NaN results (spec 00_scope.md R21) -/

/-- An infinity is no NaN (R20). -/
theorem f32IsNaN_of_isInf {x : F32} (hx : f32IsInf x = true) : f32IsNaN x = false := by
  simp only [f32IsInf, Bool.and_eq_true] at hx
  simp [f32IsNaN, hx.2, bne]

theorem f32Add_of_nan {x y : F32} (h : f32IsNaN x = true ∨ f32IsNaN y = true) :
    f32Add x y = canonNaN := by
  rw [f32Add, if_pos (by simpa using h)]

theorem f32Sub_of_nan {x y : F32} (h : f32IsNaN x = true ∨ f32IsNaN y = true) :
    f32Sub x y = canonNaN := f32Add_of_nan (by rwa [f32IsNaN_flip])

theorem f32Mul_of_nan {x y : F32} (h : f32IsNaN x = true ∨ f32IsNaN y = true) :
    f32Mul x y = canonNaN := by
  rw [f32Mul, if_pos (by simpa using h)]

/-- Each branch of R25 is `CANON_NAN` or no NaN: an infinite operand, an exact zero or a rounded
sum. -/
theorem f32Add_canonNaN_or_not_nan (x y : F32) :
    f32Add x y = canonNaN ∨ f32IsNaN (f32Add x y) = false := by
  unfold f32Add
  split
  case isTrue => exact .inl rfl
  split
  case isTrue => exact .inl rfl
  right
  split
  case isTrue hx => exact f32IsNaN_of_isInf hx
  split
  case isTrue hy => exact f32IsNaN_of_isInf hy
  dsimp only
  split
  case isTrue => split <;> decide
  case isFalse hr => exact rneInt_not_nan hr (by positivity)

/-- Each branch of R27 is `CANON_NAN` or no NaN: an infinity, a zero or a rounded product. -/
theorem f32Mul_canonNaN_or_not_nan (x y : F32) :
    f32Mul x y = canonNaN ∨ f32IsNaN (f32Mul x y) = false := by
  unfold f32Mul
  split
  case isTrue => exact .inl rfl
  dsimp only
  split
  case isTrue => exact .inl rfl
  right
  split
  case isTrue => exact (f32_inf_pattern _).1
  split
  case isTrue => exact (f32_finite_pattern _ (by norm_num)).1
  case isFalse hr => exact rneInt_not_nan hr (by positivity)

/-- Settles O39: by the branches of R25 and R27, rounding never giving NaN. -/
theorem nanResultsAreCanonical : Obligations.NanResultsAreCanonical := by
  have canonical : ∀ {z : F32}, z = canonNaN ∨ f32IsNaN z = false → f32IsNaN z = true → z = canonNaN :=
    fun h hz => h.resolve_right (by simp [hz])
  intro x y
  exact ⟨canonical (f32Add_canonNaN_or_not_nan x y), canonical (f32Add_canonNaN_or_not_nan x _),
    canonical (f32Mul_canonNaN_or_not_nan x y),
    fun h => ⟨f32Add_of_nan h, f32Sub_of_nan h, f32Mul_of_nan h⟩⟩

/-! ## Integers and literals (R22, R29) -/

/-- Settles O40: a Sample has at most 16 significant bits, so `i2f_spec` applies. -/
theorem sampleConversionIsExact : Obligations.SampleConversionIsExact :=
  ⟨rfl, fun _ _ _ => i2f_spec (by omega)⟩

/-- Settles O45: the roundings and the values are computed. -/
theorem defaultLiteralsRoundAsGiven : Obligations.DefaultLiteralsRoundAsGiven := by
  unfold Obligations.DefaultLiteralsRoundAsGiven
  decide +kernel

/-! ## Correct rounding (R24 to R27) -/

theorem f32Scaled_natAbs (x : F32) : (f32Scaled x).natAbs = f32Mag x := by
  unfold f32Scaled
  split <;> simp

/-- `f32Scaled` as sign times magnitude, where the sign bit is that of the nonzero number `num`. -/
theorem f32Scaled_eq_sign_mul {num : Int} (hn : num ≠ 0) {x : F32}
    (hs : f32Sign x = decide (num < 0)) : f32Scaled x = num.sign * f32Mag x := by
  rcases lt_or_gt_of_ne hn with h | h
  · simp [f32Scaled, hs, h, Int.sign_eq_neg_one_of_neg h]
  · simp [f32Scaled, hs, h.le, Int.sign_eq_one_of_pos h]

/-- `rne_cases` of a ratio given in units of 2^-149: the scaling is cancelled. -/
theorem rne_units_cases (neg : Bool) {a den : Nat} (ha : 0 < a) (hd : 0 < den) :
    ∃ k n : Nat, (k = 0 ∨ den * 2 ^ (k + 23) ≤ a) ∧ a < den * 2 ^ (k + 24) ∧
      n = nearestEven a (den * 2 ^ k) ∧
      ((f32Over ≤ n * 2 ^ k ∧ rne neg a (den * 2 ^ 149) = f32Inf neg) ∨
        (n * 2 ^ k < f32Over ∧ k * 2 ^ 23 + n < 0x7F800000 ∧
          rne neg a (den * 2 ^ 149) = f32Pattern neg (k * 2 ^ 23 + n) ∧
          f32Mag (rne neg a (den * 2 ^ 149)) = n * 2 ^ k)) := by
  have hp : 0 < 2 ^ 149 := by positivity
  obtain ⟨k, n, lo, hi, hnear, -, -, h⟩ := rne_cases neg ha (Nat.mul_pos hd hp)
  have scale : ∀ c, den * 2 ^ 149 * c = den * c * 2 ^ 149 := fun c => Nat.mul_right_comm ..
  rw [scale, Nat.mul_le_mul_right_iff hp] at lo
  rw [scale, Nat.mul_lt_mul_right hp] at hi
  rw [scale, nearestEven_mul_right _ _ hp] at hnear
  refine ⟨k, n, lo, hi, hnear, h.imp_right ?_⟩
  rintro ⟨hlt, -, hm, hr, hmag⟩
  exact ⟨hlt, hm, hr, hmag⟩

/-- Rounding reaches an even number `N` from half a unit below it on: there the tie goes up to `N`. -/
theorem le_nearestEven_iff {a q N : Nat} (hq : 0 < q) (hN : N % 2 = 0) :
    N ≤ nearestEven a q ↔ 2 * N * q ≤ 2 * a + q := by
  obtain ⟨above, below, tie⟩ := nearestEven_spec a hq
  generalize nearestEven a q = n at *
  constructor
  · intro h
    exact (Nat.mul_le_mul_right q (by omega)).trans below
  · intro h
    by_contra hlt
    have hmul : 2 * N * q ≤ (2 * n + 2) * q := by
      calc 2 * N * q ≤ (2 * n + 1) * q + q := by omega
        _ = (2 * n + 2) * q := by ring
    have := Nat.le_of_mul_le_mul_right hmul hq
    obtain rfl : N = n + 1 := by omega
    have heven : n % 2 = 0 := tie (.inl (le_antisymm above (by nlinarith)))
    omega

/-- The rounded magnitude reaches 2^128 exactly when the exact one is at least 2^128 - 2^103 (R24).
That is half a unit below 2^128 at the greatest exponent, 253; at a smaller one neither holds, at a
greater one both do. -/
theorem f32Over_le_rounded_iff {a den k : Nat} (hd : 0 < den)
    (lo : k = 0 ∨ den * 2 ^ (k + 23) ≤ a) (hi : a < den * 2 ^ (k + 24)) :
    f32Over ≤ nearestEven a (den * 2 ^ k) * 2 ^ k ↔ den * (f32Over - 2 ^ 103 * 2 ^ 149) ≤ a := by
  obtain ⟨hle, hge⟩ := rne_bounds hd lo hi
  obtain ⟨P, hP⟩ : ∃ P : Nat, P = 2 ^ 252 := ⟨_, rfl⟩
  have hPpos : 0 < P := by rw [hP]; positivity
  have hover : f32Over = 2 ^ 25 * P := by rw [f32Over, hP, ← pow_add, ← pow_add]
  have hhalf : f32Over - 2 ^ 103 * 2 ^ 149 = (2 ^ 25 - 1) * P := by
    rw [hover, ← pow_add, show 103 + 149 = 252 from rfl, ← hP, Nat.sub_mul, Nat.one_mul]
  have pow_le : ∀ {i j : Nat}, i ≤ j → 2 ^ i ≤ 2 ^ j := Nat.pow_le_pow_right (by norm_num)
  rw [hhalf, hover]
  rcases lt_trichotomy k 253 with hk | rfl | hk
  · have h1 : nearestEven a (den * 2 ^ k) * 2 ^ k ≤ 2 ^ 24 * P := by
      rw [hP]; exact Nat.mul_le_mul hle (pow_le (by omega))
    have h2 : a < den * (2 ^ 24 * P) := by
      rw [hP, ← pow_add]; exact hi.trans_le (Nat.mul_le_mul_left _ (pow_le (by omega)))
    have h3 : den * (2 ^ 24 * P) ≤ den * ((2 ^ 25 - 1) * P) :=
      Nat.mul_le_mul_left _ (Nat.mul_le_mul_right _ (by norm_num))
    exact iff_of_false (by omega) (by omega)
  · have hpow : 2 ^ 253 = 2 * P := by rw [hP, ← pow_succ']
    rw [hpow, show 2 ^ 25 * P = 2 ^ 24 * (2 * P) by ring,
      Nat.mul_le_mul_right_iff (by omega), le_nearestEven_iff (by positivity) rfl,
      Nat.mul_left_comm den 2 P, Nat.mul_left_comm den _ P]
    omega
  · have hn : 2 ^ 23 ≤ nearestEven a (den * 2 ^ k) := hge.resolve_left (by omega)
    have hlo : den * 2 ^ (k + 23) ≤ a := lo.resolve_left (by omega)
    have h1 : 2 ^ 25 * P ≤ nearestEven a (den * 2 ^ k) * 2 ^ k := by
      calc 2 ^ 25 * P = 2 ^ 23 * 2 ^ 254 := by rw [hP, ← pow_add, ← pow_add]
        _ ≤ _ := Nat.mul_le_mul hn (pow_le (by omega))
    have h2 : den * ((2 ^ 25 - 1) * P) ≤ a := by
      calc den * ((2 ^ 25 - 1) * P) ≤ den * (2 ^ 25 * P) :=
            Nat.mul_le_mul_left _ (Nat.mul_le_mul_right _ (by norm_num))
        _ = den * 2 ^ 277 := by rw [hP, ← pow_add]
        _ ≤ den * 2 ^ (k + 23) := Nat.mul_le_mul_left _ (pow_le (by omega))
        _ ≤ a := hlo
    exact iff_of_true h1 h2

/-- A 24-bit integer times a power of two is a multiple of `2^k`, or is below `2^(k+23)`. -/
theorem two_pow_dvd_or_lt {m : Nat} (hm : m < 2 ^ 24) (j k : Nat) :
    2 ^ k ∣ m * 2 ^ j ∨ m * 2 ^ j < 2 ^ (k + 23) := by
  rcases Nat.lt_or_ge j k with h | h
  · right
    calc m * 2 ^ j < 2 ^ 24 * 2 ^ j := Nat.mul_lt_mul_of_pos_right hm (by positivity)
      _ = 2 ^ (j + 1 + 23) := by ring
      _ ≤ 2 ^ (k + 23) := Nat.pow_le_pow_right (by norm_num) (by omega)
  · exact .inl (Dvd.dvd.mul_left (pow_dvd_pow 2 h) m)

/-- Of all values `c` of a binary32's form, the multiple of `2^k` that `rne` takes is nearest to
`a / den`. A finer `c` lies below `2^(k+23)`, itself such a multiple and not above `a / den`, so it is
farther away than that one (R24). -/
theorem nearestEven_nearest_f32 {a den k n : Nat} (hd : 0 < den)
    (lo : k = 0 ∨ den * 2 ^ (k + 23) ≤ a) (hn : n = nearestEven a (den * 2 ^ k)) {c : Int}
    (hc : ∃ m j : Nat, c.natAbs = m * 2 ^ j ∧ m < 2 ^ 24) :
    (((n * 2 ^ k : Nat) : Int) * den - a).natAbs ≤ (c * den - a).natAbs ∧
      ((c * den - a).natAbs = (((n * 2 ^ k : Nat) : Int) * den - a).natAbs →
        c = (n * 2 ^ k : Nat) ∨ n % 2 = 0) := by
  have near : ∀ d : Int, ((n : Int) * 2 ^ k * den - a).natAbs ≤ (d * 2 ^ k * den - a).natAbs ∧
      ((d * 2 ^ k * den - a).natAbs = ((n : Int) * 2 ^ k * den - a).natAbs → d = n ∨ n % 2 = 0) := by
    intro d
    have unit : ∀ d : Int, d * ((den * 2 ^ k : Nat) : Int) = d * 2 ^ k * den := fun d => by
      push_cast; ring
    have h := nearestEven_nearest (a := a) (show 0 < den * 2 ^ k by positivity) d
    rwa [← hn, unit, unit] at h
  push_cast
  obtain ⟨m, j, hm, hlt⟩ := hc
  by_cases h : 2 ^ k ∣ c.natAbs
  · obtain ⟨d, rfl⟩ : (2 ^ k : Int) ∣ c := by
      rw [← Int.natAbs_dvd_natAbs]; simpa [Int.natAbs_pow] using h
    rw [Int.mul_comm _ d]
    exact ⟨(near d).1, fun he => ((near d).2 he).imp_left (by rintro rfl; rfl)⟩
  · have hlo : den * 2 ^ (k + 23) ≤ a := lo.resolve_left fun hk => h (by simp [hk])
    have hlt' : c.natAbs < 2 ^ (k + 23) := by
      rw [hm] at h ⊢
      exact (two_pow_dvd_or_lt hlt j k).resolve_left h
    have hc : c * den < 2 ^ 23 * 2 ^ k * den := by
      refine Int.mul_lt_mul_of_pos_right ?_ (by exact_mod_cast hd)
      zify [pow_add] at hlt'
      linarith [le_abs_self c]
    have ha : 2 ^ 23 * 2 ^ k * (den : Int) ≤ a := by
      zify [pow_add] at hlo
      linarith
    have hclose := (near (2 ^ 23)).1
    have hfar : (2 ^ 23 * 2 ^ k * (den : Int) - a).natAbs < (c * den - a).natAbs := by omega
    exact ⟨by omega, fun he => by omega⟩

/-- The distance from the value `num / den` does not depend on its sign. -/
theorem natAbs_sign_mul_sub {num : Int} (hn : num ≠ 0) (c den : Int) :
    (num.sign * c * den - num).natAbs = (c * den - num.natAbs).natAbs := by
  have : num.sign * c * den - num = num.sign * (c * den - num.natAbs) := by
    rw [Int.mul_sub, Int.sign_mul_natAbs, Int.mul_assoc]
  rw [this, Int.natAbs_mul, Int.natAbs_sign_of_ne_zero hn, Nat.one_mul]

/-- A rounded value is infinite exactly from 2^128 - 2^103 on (R24). -/
theorem f32IsInf_rneInt_iff {num : Int} {den : Nat} (hn : num ≠ 0) (hd : 0 < den) :
    f32IsInf (rneInt num (den * 2 ^ 149)) = true ↔
      den * (f32Over - 2 ^ 103 * 2 ^ 149) ≤ num.natAbs := by
  have hpos : 0 < num.natAbs := by omega
  obtain ⟨k, n, lo, hi, hnear, h⟩ := rne_units_cases (decide (num < 0)) hpos hd
  rw [← f32Over_le_rounded_iff hd lo hi, ← hnear, rneInt_eq]
  rcases h with ⟨hle, hr⟩ | ⟨hlt, hm, hr, -⟩
  · exact iff_of_true (hr ▸ (f32_inf_pattern _).2.1) hle
  · refine iff_of_false ?_ (not_le.2 hlt)
    rw [hr, (f32_finite_pattern _ hm).2]
    exact Bool.false_ne_true

/-- A finite rounded value is the nearest multiple of `2^k`, with the sign put back, and its fraction
is as even as that multiple (R24). -/
theorem rneInt_of_finite {num : Int} {den : Nat} (hn : num ≠ 0) (hd : 0 < den)
    (hf : f32IsFinite (rneInt num (den * 2 ^ 149)) = true) :
    ∃ k n : Nat, (k = 0 ∨ den * 2 ^ (k + 23) ≤ num.natAbs) ∧
      n = nearestEven num.natAbs (den * 2 ^ k) ∧
      f32Scaled (rneInt num (den * 2 ^ 149)) = num.sign * (n * 2 ^ k : Nat) ∧
      f32Frac (rneInt num (den * 2 ^ 149)) % 2 = n % 2 := by
  have hpos : 0 < num.natAbs := by omega
  have hsign := f32Sign_rne (decide (num < 0)) hpos (show 0 < den * 2 ^ 149 by positivity)
  rw [rneInt_eq] at hf ⊢
  obtain ⟨k, n, lo, -, hnear, h⟩ := rne_units_cases (decide (num < 0)) hpos hd
  rcases h with ⟨-, hr⟩ | ⟨-, hm, hr, hmag⟩
  · rw [hr, f32IsFinite_iff, (f32_inf_pattern _).2.1] at hf
    exact absurd hf.2 (by simp)
  · refine ⟨k, n, lo, hnear, ?_, ?_⟩
    · rw [f32Scaled_eq_sign_mul hn hsign, hmag]
    · rw [hr, f32Frac_pattern _ (by omega)]; omega

/-- No binary32 value is nearer than a finite rounded one; another is equally near only when the
rounded one is even (R24). -/
theorem rneInt_nearest {num : Int} {den : Nat} (hn : num ≠ 0) (hd : 0 < den)
    (hf : f32IsFinite (rneInt num (den * 2 ^ 149)) = true) (y : F32) :
    let z := rneInt num (den * 2 ^ 149)
    (f32Scaled z * den - num).natAbs ≤ (f32Scaled y * den - num).natAbs ∧
      ((f32Scaled y * den - num).natAbs = (f32Scaled z * den - num).natAbs →
        f32Scaled y = f32Scaled z ∨ f32Frac z % 2 = 0) := by
  intro z
  obtain ⟨k, n, lo, hnear, hz, heven⟩ := rneInt_of_finite hn hd hf
  have hy : f32Scaled y = num.sign * (num.sign * f32Scaled y) := by
    rw [← Int.mul_assoc, ← Int.natAbs_mul_self' num.sign, Int.natAbs_sign_of_ne_zero hn]; simp
  have hform : (num.sign * f32Scaled y).natAbs = f32Mag y := by
    rw [Int.natAbs_mul, Int.natAbs_sign_of_ne_zero hn, Nat.one_mul, f32Scaled_natAbs]
  obtain ⟨le, tie⟩ := nearestEven_nearest_f32 hd lo hnear (hform ▸ f32Mag_form y)
  rw [hy, hz, heven, natAbs_sign_mul_sub hn, natAbs_sign_mul_sub hn]
  exact ⟨le, fun he => (tie he).imp_left (congrArg (num.sign * ·))⟩

/-- `rneInt` rounds correctly (R24). -/
theorem rneInt_correctlyRounded {num : Int} {den : Nat} (hn : num ≠ 0) (hd : 0 < den) :
    correctlyRounded num den (rneInt num (den * 2 ^ 149)) where
  sign := f32Sign_rne _ (by omega) (by positivity)
  notNaN := rneInt_not_nan hn (by positivity)
  overflow := f32IsInf_rneInt_iff hn hd
  nearest hf y _ := (rneInt_nearest hn hd hf y).1
  tiesEven hf y _ := (rneInt_nearest hn hd hf y).2

/-- A nonzero number of units of 2^-149, rounded. -/
theorem rneInt_units_correctlyRounded {r : Int} (hr : r ≠ 0) :
    correctlyRounded r 1 (rneInt r (2 ^ 149)) := by
  have h := rneInt_correctlyRounded hr Nat.one_pos
  rwa [Nat.one_mul] at h

/-- Settles O42: the exact sum or difference goes through `rneInt`, which rounds correctly. -/
theorem sumAndDifferenceAreCorrectlyRounded : Obligations.SumAndDifferenceAreCorrectlyRounded := by
  intro x y hx hy
  refine ⟨fun hr => ?_, fun hr => ?_⟩
  · rw [f32Add_finite hx hy, if_neg hr]
    exact rneInt_units_correctlyRounded hr
  · rw [f32Sub_finite hx hy, if_neg hr]
    exact rneInt_units_correctlyRounded hr

/-- Settles O43: the exact product goes through `rneInt`, which rounds correctly. -/
theorem productIsCorrectlyRounded : Obligations.ProductIsCorrectlyRounded := by
  intro x y hx hy hr
  rw [f32Mul_finite hx hy, if_neg hr]
  exact rneInt_correctlyRounded hr (by positivity)

/-! ## Infinities and zeros (R25 to R27) -/

/-- An infinity is its sign (R20). -/
theorem eq_f32Inf {x : F32} (hx : f32IsInf x = true) : x = f32Inf (f32Sign x) := by
  simp only [f32IsInf, Bool.and_eq_true, beq_iff_eq] at hx
  obtain ⟨he, hf⟩ := hx
  refine f32_ext (f32_inf_pattern _).2.2.symm ?_ ?_
  · rw [he, f32Inf, f32Exp_pattern _ (by norm_num)]; rfl
  · rw [hf, f32Inf, f32Frac_pattern _ (by norm_num)]; rfl

/-- Flipping an infinity's sign gives the opposite infinity (R26). -/
theorem f32Flip_of_isInf {x : F32} (hx : f32IsInf x = true) :
    x ^^^ 0x80000000#32 = f32Inf (!f32Sign x) := by
  rw [eq_f32Inf (x := x ^^^ 0x80000000#32) (by rwa [f32IsInf_flip]), f32Sign_flip]

theorem f32Inf_literal (neg : Bool) : f32Inf neg = if neg = true then 0xFF800000 else 0x7F800000 := by
  cases neg <;> decide

theorem f32Zero_literal (neg : Bool) :
    f32Zero neg = if neg = true then 0x80000000 else 0x00000000 := by
  cases neg <;> decide

/-- An infinity is no zero (R20). -/
theorem f32IsZero_of_isInf {x : F32} (hx : f32IsInf x = true) : f32IsZero x = false := by
  simp only [f32IsInf, Bool.and_eq_true, beq_iff_eq] at hx
  simp [f32IsZero, hx.1]

/-- A zero is finite (R20). -/
theorem f32IsFinite_of_isZero {x : F32} (hx : f32IsZero x = true) : f32IsFinite x = true := by
  simp only [f32IsZero, Bool.and_eq_true, beq_iff_eq] at hx
  simp [f32IsFinite, hx.1]

theorem f32Add_opposite_inf {x y : F32} (hx : f32IsInf x = true) (hy : f32IsInf y = true)
    (hs : f32Sign x ≠ f32Sign y) : f32Add x y = canonNaN := by
  simp [f32Add, f32IsNaN_of_isInf hx, f32IsNaN_of_isInf hy, hx, hy, hs]

theorem f32Add_same_inf {x y : F32} (hx : f32IsInf x = true) (hy : f32IsInf y = true)
    (hs : f32Sign x = f32Sign y) : f32Add x y = x := by
  simp [f32Add, f32IsNaN_of_isInf hx, f32IsNaN_of_isInf hy, hx, hs]

theorem f32Add_inf_finite {x y : F32} (hx : f32IsInf x = true) (hy : f32IsFinite y = true) :
    f32Add x y = x := by
  obtain ⟨hnan, hinf⟩ := (f32IsFinite_iff y).1 hy
  simp [f32Add, f32IsNaN_of_isInf hx, hnan, hx, hinf]

theorem f32Add_finite_inf {x y : F32} (hx : f32IsFinite x = true) (hy : f32IsInf y = true) :
    f32Add x y = y := by
  obtain ⟨hnan, hinf⟩ := (f32IsFinite_iff x).1 hx
  simp [f32Add, f32IsNaN_of_isInf hy, hnan, hy, hinf]

/-- A product does not depend on the operands' order (R27). -/
theorem f32Mul_comm (x y : F32) : f32Mul x y = f32Mul y x := by
  unfold f32Mul
  rw [Bool.or_comm (f32IsNaN x), Bool.or_comm (f32IsInf x && _), Bool.and_comm (f32IsZero x),
    Bool.and_comm (f32IsInf x), Bool.or_comm (f32IsInf x), Int.mul_comm (f32Scaled x),
    bne_comm (a := f32Sign x)]

theorem f32Mul_inf_zero {x y : F32} (hx : f32IsInf x = true) (hy : f32IsZero y = true) :
    f32Mul x y = canonNaN := by
  obtain ⟨hnan, -⟩ := (f32IsFinite_iff y).1 (f32IsFinite_of_isZero hy)
  simp [f32Mul, f32IsNaN_of_isInf hx, hnan, hx, hy]

theorem f32Mul_inf_nonzero {x y : F32} (hx : f32IsInf x = true) (hnan : f32IsNaN y = false)
    (hzero : f32IsZero y = false) : f32Mul x y = f32Inf (f32Sign x != f32Sign y) := by
  simp [f32Mul, f32IsNaN_of_isInf hx, f32IsZero_of_isInf hx, hnan, hzero, hx]

theorem f32Mul_zero_finite {x y : F32} (hx : f32IsZero x = true) (hy : f32IsFinite y = true) :
    f32Mul x y = f32Zero (f32Sign x != f32Sign y) := by
  have hval : f32Scaled x = 0 := by
    rw [← Int.natAbs_eq_zero, f32Scaled_natAbs, f32Mag_eq_zero, hx]
  rw [f32Mul_finite (f32IsFinite_of_isZero hx) hy, hval, Int.zero_mul, if_pos rfl]

/-- Settles O44: clause by clause, a difference as the sum with the flipped subtrahend. -/
theorem infinitiesAndZerosFollowTheRules : Obligations.InfinitiesAndZerosFollowTheRules := by
  refine ⟨fun x y => f32Add_opposite_inf, fun x y => f32Add_same_inf,
    fun x y hx hy => ⟨f32Add_inf_finite hx hy, f32Add_finite_inf hy hx⟩, ?addZero,
    ?subSame, ?subOpposite, ?subInf, ?subZero,
    fun x y hx hy => ⟨f32Mul_inf_zero hx hy, f32Mul_comm y x ▸ f32Mul_inf_zero hx hy⟩,
    ?mulInf, ?mulZero⟩
  case addZero =>
    intro x y hx hy hr
    exact (f32Add_finite hx hy).trans (if_pos hr)
  case subZero =>
    intro x y hx hy hr
    exact (f32Sub_finite hx hy).trans (if_pos hr)
  case subSame =>
    intro x y hx hy hs
    exact f32Add_opposite_inf hx (by rwa [f32IsInf_flip]) (by simp [hs])
  case subOpposite =>
    intro x y hx hy hs
    exact f32Add_same_inf hx (by rwa [f32IsInf_flip]) (by simpa using Bool.eq_not_of_ne hs)
  case subInf =>
    intro x y hx hy
    refine ⟨f32Add_inf_finite hx (by rwa [f32IsFinite_flip]), ?_⟩
    rw [f32Sub, f32Add_finite_inf hy (by rwa [f32IsInf_flip]), f32Flip_of_isInf hx, f32Inf_literal]
    cases f32Sign x <;> rfl
  case mulInf =>
    intro x y hx hnan hzero
    have h : f32Mul x y = if f32Sign x = f32Sign y then 0x7F800000 else 0xFF800000 := by
      rw [f32Mul_inf_nonzero hx hnan hzero, f32Inf_literal]; simp
    exact ⟨h, f32Mul_comm y x ▸ h⟩
  case mulZero =>
    intro x y hx hy
    have h : f32Mul x y = if f32Sign x = f32Sign y then 0x00000000 else 0x80000000 := by
      rw [f32Mul_zero_finite hx hy, f32Zero_literal]; simp
    exact ⟨h, f32Mul_comm y x ▸ h⟩

end Sys2Proof.Machine

namespace Sys2Proof

/-! # The state: what a step keeps of it (spec 10_state.md)

What an edge leaves of the core is said once, by `step_effect`: a reset, or one of the five cases of
`Effect` with a new port. Registers, mode and the invariant are read off it. That filter state which no
command can read never shows is a claim about two states, with a lemma per operation of its own. -/

/-! ## A decoded word (spec 30_encoding.md R307, R308) -/

theorem decode_eq_ok_iff (w : Word64) (i : Instr) :
    decode w = .ok i ↔ ∃ o, opcodeOf (fieldsOf w).op = some o ∧ unusedZero o (fieldsOf w) = true ∧
      operandsOf o (fieldsOf w) = i := by
  unfold decode decodeFields
  cases opcodeOf (fieldsOf w).op with
  | none => simp
  | some o => cases hz : unusedZero o (fieldsOf w) <;> simp [hz]

/-- The fields of an opcode's command are those it was assembled from. -/
theorem fieldsOfInstr_operandsOf {o : Opcode} {f : Fields} (hop : opcodeOf f.op = some o)
    (hz : unusedZero o f = true) : fieldsOfInstr (operandsOf o f) = f := by
  rw [opcodeOf_eq_some_iff] at hop
  obtain ⟨op, sel, rsv, idx, a, b⟩ := f
  have halves : (a ++ b).extractLsb' 16 16 = a ∧ (a ++ b).extractLsb' 0 16 = b :=
    ⟨BitVec.extractLsb'_append_eq_left, BitVec.extractLsb'_append_eq_right⟩
  cases o <;> simp_all [unusedZero, operandsOf, fieldsOfInstr, opcodeBits]

/-- A word that decodes is the word of its command. -/
theorem encode_of_decode {w : Word64} {i : Instr} (h : decode w = .ok i) : encode i = w := by
  obtain ⟨o, hop, hz, rfl⟩ := (decode_eq_ok_iff w i).1 h
  rw [encode, fieldsOfInstr_operandsOf hop hz, wordOf_fieldsOf]

/-- A decoded command's operands are in range. -/
theorem wellFormed_of_decode {w : Word64} {i : Instr} (h : decode w = .ok i) :
    i.wellFormed = true := by
  obtain ⟨o, -, -, rfl⟩ := (decode_eq_ok_iff w i).1 h
  cases o <;> simp [operandsOf, Instr.wellFormed, sext16_inRange]

end Sys2Proof

namespace Sys2Proof.Machine

/-! ## The reset state (R140) -/

theorem nmax_range : 128 ≤ Config.nmax ∧ Config.nmax ≤ 65535 := by
  have := Config.nmaxAbove.isLt
  unfold Config.nmax
  omega

/-- Settles O15: every field of `resetOf` is the value written out, and `Config.nmax` is in range. -/
theorem resetRegistersReadTheirValues : Obligations.ResetRegistersReadTheirValues := by
  refine ⟨rfl, nmax_range.1, nmax_range.2, fun n => ?_⟩
  have status : readReg (State.resetOf n) .status = 0 := by simp [readReg]
  exact ⟨rfl, rfl, rfl, status, rfl, rfl, rfl, rfl, rfl, rfl, rfl, rfl, rfl, rfl, rfl, rfl, rfl, rfl, rfl,
    rfl⟩

/-- The reset state meets the invariant. -/
theorem resetOf_inv {n : Nat} (hlo : 128 ≤ n) (hhi : n ≤ 65535) : (State.resetOf n).Inv where
  nmaxRange := ⟨hlo, hhi⟩
  wLength := List.length_replicate
  dLength := List.length_replicate
  gateLegal := by rw [resetOf_gate]; decide
  lenLegal := by simp [legalLen, hlo]
  chanLegal := by rw [resetOf_chan]; decide
  dSamples x hx := ⟨0, by decide, List.eq_of_mem_replicate hx⟩
  prevErrInt := ⟨0, by decide, rfl⟩
  tapsNotNegZero x hx := by rw [List.eq_of_mem_replicate hx]; decide
  tailZero h := by simp at h
  unusedZero h := by simp at h
  portLegal r h := by simp [rspPending] at h

/-- Settles O46: LEN's reset value 128 is legal at every NMAX from 128 on; the rest does not depend on
NMAX. -/
theorem resetStateMeetsTheInvariant : Obligations.ResetStateMeetsTheInvariant :=
  ⟨fun _ => resetOf_inv, resetOf_inv nmax_range.1 nmax_range.2⟩

/-! ## Responses (spec 30_encoding.md R320, R321; 41_sample.md R533) -/

/-- A response of a status alone is legal, whatever the status. -/
theorem legalResponse_status (st : Status) : legalResponse (packResponse { status := st }) where
  reserved := rspReserved_pack _
  status := rspStatus_pack _ ▸ statusCode_le st
  errors _ := ⟨rspData_pack _, rspAct_pack _, rspOut_pack _⟩
  out := by simp

/-- An OK response is legal when its OUT is not -32768. -/
theorem legalResponse_ok {r : Response} (hst : r.status = .ok) (hout : r.out ≠ 0x8000) :
    legalResponse (packResponse r) where
  reserved := rspReserved_pack _
  status := rspStatus_pack _ ▸ statusCode_le _
  errors h := absurd ((rspStatus_pack r).trans (hst ▸ rfl)) h
  out := by rwa [rspOut_pack]

theorem clampedScaled_range (c : F32) :
    -32768 * 2 ^ 149 ≤ clampedScaled c ∧ clampedScaled c ≤ 32767 * 2 ^ 149 := by
  unfold clampedScaled clampR
  split_ifs <;> omega

/-- The limiter's output lies in -32767 to 32767 (41_sample.md R533). -/
theorem limit_range (c : F32) : -32767 ≤ limit c ∧ limit c ≤ 32767 := by
  unfold limit
  split
  · decide
  · have hc := clampedScaled_range c
    obtain ⟨hr, -⟩ := roundHA_spec (clampedScaled c)
    unfold sat16
    split_ifs <;> omega

theorem outputSample_range (act : Bool) (c : F32) :
    -32767 ≤ outputSample act c ∧ outputSample act c ≤ 32767 := by
  cases act
  · simp [outputSample]
  · exact limit_range c

theorem sampleInRange_iff (i : Int) : sampleInRange i = true ↔ -32768 ≤ i ∧ i ≤ 32767 := by
  simp [sampleInRange]

/-- PROC's OUT is never -32768. -/
theorem procResponse_out (n f : Int) (s : State) : (procResponse n f s).out ≠ 0x8000 := by
  intro h
  have hr := outputSample_range (gateOpen s n) (filterSample n f s).2
  have hs : sext16 (procResponse n f s).out = outputSample (gateOpen s n) (filterSample n f s).2 :=
    sext16_bits16 ((sampleInRange_iff _).2 (by omega))
  rw [h, show sext16 0x8000 = -32768 by decide] at hs
  omega

/-! ## What a step can do -/

/-- What an edge leaves of the core's state `s`, its ports apart, by the word accepted at it. -/
inductive Effect (s : State) : Option Word64 → State → Prop where
  /-- Nothing is new: no word, a command that only answers, or one that fails. -/
  | keep (w : Option Word64) : Effect s w s
  /-- CFG_WR of a legal value (40_control.md R420). -/
  | write (w : Option Word64) (r : Reg) (v : Word32) (hmode : s.mode = .idle)
    (hlegal : legalValue s.nmax r v = true) : Effect s w (writeReg r v s)
  /-- START (40_control.md R430). -/
  | start (hmode : s.mode = .idle) :
    Effect s (some 0x3000000000000000) { zeroFilterState s with mode := .running }
  /-- STOP (40_control.md R440). -/
  | stop (hmode : s.mode = .running) : Effect s (some 0x4000000000000000) { s with mode := .idle }
  /-- PROC of two Samples (41_sample.md R530). -/
  | proc (w : Option Word64) (n f : Int) (hmode : s.mode = .running)
    (hn : sampleInRange n = true) (hf : sampleInRange f = true) : Effect s w (filterSample n f s).1

/-- The effect of a command, and that its response is a legal one. -/
theorem exec_effect (i : Instr) (s : State) (hi : i.wellFormed = true) :
    ∃ u r, exec i s = respond r u ∧ Effect s (some (encode i)) u ∧ legalResponse (packResponse r) := by
  have fails : ∀ st, ∃ u r, fail st s = respond r u ∧ Effect s (some (encode i)) u ∧
      legalResponse (packResponse r) := fun st => ⟨s, _, rfl, .keep _, legalResponse_status st⟩
  have reads : ∀ v, ∃ u r, respond { data := v } s = respond r u ∧ Effect s (some (encode i)) u ∧
      legalResponse (packResponse r) :=
    fun v => ⟨s, _, rfl, .keep _, legalResponse_ok rfl (by simp)⟩
  cases i with
  | nop => exact reads 0
  | cfgRd idx =>
    simp only [exec, execCfgRd]
    split
    · exact fails _
    · exact reads _
  | cfgWr idx v =>
    simp only [exec, execCfgWr]
    split
    · exact fails _
    case h_2 hm =>
      split
      · exact fails _
      · split_ifs with hro hlegal
        · exact fails _
        · exact ⟨_, _, rfl, .write _ _ _ hm hlegal, legalResponse_status .ok⟩
        · exact fails _
  | start =>
    simp only [exec, execStart]
    split
    · exact fails _
    case h_2 hm => exact ⟨_, _, rfl, .start hm, legalResponse_status .ok⟩
  | stop =>
    simp only [exec, execStop]
    split
    · exact fails _
    case h_2 hm => exact ⟨_, _, rfl, .stop hm, legalResponse_status .ok⟩
  | proc n f =>
    simp only [exec, execProc]
    simp only [Instr.wellFormed, Bool.and_eq_true] at hi
    split
    · exact fails _
    case h_2 hm =>
      exact ⟨_, _, rfl, .proc _ n f hm hi.1 hi.2, legalResponse_ok rfl (procResponse_out n f s)⟩
  | procNoin =>
    simp only [exec, execProcNoin]
    split
    · exact fails _
    · exact reads 0
  | rdState sel idx =>
    simp only [exec, execRdState]
    split
    · exact fails _
    · split
      · exact fails _
      · exact reads _

/-- The effect of an accepted word, legal or not. -/
theorem acceptWord_effect (w : Word64) (s : State) :
    ∃ u r, acceptWord w s = respond r u ∧ Effect s (some w) u ∧ legalResponse (packResponse r) := by
  unfold acceptWord
  cases hd : decode w with
  | ok i =>
    have h := exec_effect i s (wellFormed_of_decode hd)
    rwa [encode_of_decode hd] at h
  | error _ => exact ⟨s, _, rfl, .keep _, legalResponse_status .illegal⟩

/-- The effect of an edge: a reset, or one of the cases of `Effect` with a new port, whose response is
the old one or a legal new one. -/
theorem step_effect {s t : State} (h : step s = .next t) :
    ((nextEdge s).rst = true ∧ t = resetCore (atEdge s)) ∨
    ((nextEdge s).rst = false ∧ ∃ u p, t = { u with port := p } ∧ Effect (atEdge s) (acceptedWord s) u ∧
      ∀ r, rspPending t = some r → rspPending s = some r ∨ legalResponse r) := by
  rcases step_cases h with ⟨hr, ht⟩ | ⟨hr, hp, -, rfl⟩ | ⟨hr, hp, hv, ha⟩ | ⟨hr, q, hp, ht⟩ |
    ⟨hr, q, hp, ht⟩
  case inl => exact .inl ⟨hr, ht⟩
  all_goals refine .inr ⟨hr, ?_⟩
  · exact ⟨_, s.port, rfl, .keep _, fun _ => .inl⟩
  · obtain ⟨u, r, he, heff, hlegal⟩ := acceptWord_effect (nextEdge s).cmdData (atEdge s)
    rw [ha, respond_eq, Host.Outcome.next.injEq] at he
    rw [(acceptedWord_eq_some_iff s _).2 ⟨hr, hp, hv, rfl⟩]
    refine ⟨u, _, he, heff, fun q hq => .inr ?_⟩
    rw [he] at hq
    exact Option.some.inj hq ▸ hlegal
  · have hstep := step_busy hp hr
    rw [h, Host.Outcome.next.injEq] at hstep
    refine ⟨_, _, hstep, .keep _, fun r hq => .inl ?_⟩
    rw [hstep] at hq
    rw [rspPending, hp]
    cases hd : (nextEdge s).done <;> rwa [hd] at hq
  · have hstep := step_offering hp hr
    rw [h, Host.Outcome.next.injEq] at hstep
    refine ⟨_, _, hstep, .keep _, fun r hq => .inl ?_⟩
    rw [hstep] at hq
    rw [rspPending, hp]
    cases hd : (nextEdge s).rspReady <;> rw [hd] at hq
    · exact hq
    · simp [rspPending] at hq

/-! ## Configuration and mode (R102, R110) -/

@[simp] theorem readReg_port (s : State) (p : Port) (r : Reg) :
    readReg { s with port := p } r = readReg s r := by cases r <;> rfl

@[simp] theorem readReg_atEdge (s : State) (r : Reg) : readReg (atEdge s) r = readReg s r := by
  cases r <;> rfl

/-- PROC writes no register (R136). -/
@[simp] theorem readReg_filterSample (n f : Int) (s : State) (r : Reg) :
    readReg (filterSample n f s).1 r = readReg s r := by
  cases r <;> simp [readReg]

/-- Only STATUS shows the mode (R113). -/
theorem readReg_mode {r : Reg} (hr : r ≠ .status) (s : State) (m : Mode) :
    readReg { s with mode := m } r = readReg s r := by
  cases r with
  | status => exact absurd rfl hr
  | _ => rfl

/-- Settles O23: in a session an edge without reset does nothing, or STOP's effect, or PROC's, and none of
these writes a register. -/
theorem configurationIsFixedInASession : Obligations.ConfigurationIsFixedInASession := by
  intro s t hstep hmode hrst r hr
  have locked : (atEdge s).mode ≠ .idle := by simp [hmode]
  rcases step_effect hstep with ⟨h, -⟩ | ⟨-, u, p, rfl, heff, -⟩
  · simp [hrst] at h
  · rw [readReg_port, ← readReg_atEdge s]
    generalize acceptedWord s = w at heff
    cases heff with
    | keep => rfl
    | write _ _ _ hidle | start hidle => exact absurd hidle locked
    | stop => exact readReg_mode hr _ _
    | proc => exact readReg_filterSample _ _ _ _

/-- Settles O24: of the effects of an edge, only START's and STOP's change the mode, and each names its
word. -/
theorem onlyStartStopAndResetChangeMode : Obligations.OnlyStartStopAndResetChangeMode := by
  intro s t hstep hne
  rcases step_effect hstep with ⟨h, -⟩ | ⟨-, u, p, rfl, heff, -⟩
  · exact .inl h
  · generalize acceptedWord s = w at heff ⊢
    cases heff with
    | keep => exact absurd rfl hne
    | write => exact absurd (writeReg_mode _ _ _) hne
    | start hidle => exact .inr (.inl ⟨hidle, rfl⟩)
    | stop hrunning => exact .inr (.inr ⟨hrunning, rfl⟩)
    | proc => exact absurd (filterSample_mode _ _ _) hne

/-- A CFG_WR that is answered OK has written a legal value to a register (40_control.md R420). -/
theorem execCfgWr_ok {s t : State} {idx : BitVec 16} {v : Word32} {q : Word64}
    (h : execCfgWr idx v s = .next t) (hp : t.port = .busy q) (hok : rspStatus q = 0) :
    ∃ r, regAt idx = some r ∧ legalValue s.nmax r v = true ∧
      t = { writeReg r v s with port := .busy q } := by
  have failed : ∀ st, st ≠ .ok → fail st s ≠ .next t := by
    rintro st hne hf
    cases hf
    cases hp
    exact hne ((statusCode_eq_zero st).1 (rspStatus_pack { status := st } ▸ hok))
  unfold execCfgWr at h
  split at h
  · exact absurd h (failed _ (by decide))
  · split at h
    · exact absurd h (failed _ (by decide))
    case h_2 r hr =>
      split_ifs at h with hro hlegal
      · exact absurd h (failed _ (by decide))
      · cases h
        cases hp
        exact ⟨r, hr, hlegal, rfl⟩
      · exact absurd h (failed _ (by decide))

/-- CFG_RD of a register's index answers the register (40_control.md R410). -/
theorem execCfgRd_of_regAt {idx : BitVec 16} {r : Reg} (h : regAt idx = some r) (s : State) :
    execCfgRd idx s = .next { s with port := .busy (readReg s r ++ 0#32) } := by
  rw [execCfgRd, h, ← packResponse_data]; rfl

/-- Settles O20: the value written reads back, and a write touches its own register only. -/
theorem acceptedValueReadsBack : Obligations.AcceptedValueReadsBack := by
  intro s t idx v q hexec hp hok
  obtain ⟨r, hr, hlegal, rfl⟩ := execCfgWr_ok hexec hp hok
  constructor
  · refine (execCfgRd_of_regAt hr _).trans ?_
    rw [readReg_port, readReg_writeReg_same hlegal]
    rfl
  · intro j u u' hj hu hu'
    simp only [exec] at hu hu'
    cases hj' : regAt j with
    | none =>
      simp only [execCfgRd, hj'] at hu hu'
      cases hu
      cases hu'
      rfl
    | some r' =>
      have hne : r' ≠ r := by
        rintro rfl
        exact hj (((regAt_eq_some_iff j r').1 hj').trans ((regAt_eq_some_iff idx r').1 hr).symm)
      rw [execCfgRd_of_regAt hj'] at hu hu'
      cases hu
      cases hu'
      rw [readReg_port, readReg_writeReg_other v s hne]

/-! ## PROC's frame (R136) -/

/-- What PROC's filter part does: nothing, or the step of the session's variant. -/
theorem filterSample_cases (n f : Int) (s : State) :
    (filterSample n f s).1 = s ∨
    (s.variant = .pid ∧ (filterSample n f s).1 = (pidStep n f s).1) ∨
    (s.variant = .lms ∧ (filterSample n f s).1 = (lmsStep n f s).1) := by
  unfold filterSample variantStep
  split
  · cases hv : s.variant with
    | pid => exact .inr (.inl ⟨rfl, rfl⟩)
    | lms => exact .inr (.inr ⟨rfl, rfl⟩)
    | direct => exact .inl rfl
  · exact .inl rfl

/-- Settles O33: by what PROC's filter part can do; of an LMS step the array helpers keep the lengths and
the elements from LEN on. -/
theorem procTouchesItsVariantsStateOnly : Obligations.ProcTouchesItsVariantsStateOnly := by
  intro s t n f h
  simp only [exec, execProc] at h
  split at h
  · cases h
    exact ⟨rfl, fun _ => ⟨rfl, rfl⟩, fun _ => ⟨rfl, rfl⟩, rfl, rfl, rfl, rfl⟩
  · rw [respond_eq, Host.Outcome.next.injEq] at h
    subst h
    rcases filterSample_cases n f s with hu | ⟨hv, hu⟩ | ⟨hv, hu⟩ <;> rw [hu]
    · exact ⟨rfl, fun _ => ⟨rfl, rfl⟩, fun _ => ⟨rfl, rfl⟩, rfl, rfl, rfl, rfl⟩
    · exact ⟨rfl, fun _ => ⟨rfl, rfl⟩, absurd hv, rfl, rfl, rfl, rfl⟩
    · exact ⟨rfl, absurd hv, fun _ => ⟨rfl, rfl⟩, updateTaps_length _ _ _ _, shiftIn_length _ _ _,
        drop_updateTaps _ _ _ _, drop_shiftIn _ _ _⟩

/-! ## The invariant -/

/-- The difference of two integers of magnitude at most 65535 is exact (R601, R604). -/
theorem f32Sub_i2f {m n : Int} (hm : m.natAbs ≤ 65535) (hn : n.natAbs ≤ 65535) :
    f32Sub (i2f m) (i2f n) = i2f (m - n) := by
  obtain ⟨hmf, hms, hmz⟩ := i2f_spec (i := m) (by omega)
  obtain ⟨hnf, hns, -⟩ := i2f_spec (i := n) (by omega)
  have hdiff : m * 2 ^ 149 - n * 2 ^ 149 = (m - n) * 2 ^ 149 := by ring
  rw [f32Sub_finite hmf hnf, hms, hns, hdiff]
  by_cases h : m - n = 0
  · rw [h, if_pos (Int.zero_mul _), if_neg fun hz => hmz hz.1]; rfl
  · have hpos : 0 < (2 : Int) ^ 149 := by positivity
    have hneg : (m - n) * 2 ^ 149 < 0 ↔ m - n < 0 := by omega
    have habs : ((m - n) * 2 ^ 149).natAbs = (m - n).natAbs * 2 ^ 149 := by
      rw [Int.natAbs_mul]; rfl
    rw [if_neg (mul_ne_zero h hpos.ne'), i2f, if_neg h, rneInt_eq, rneInt_eq, habs]
    simp only [hneg]
    simpa using rne_mul_right (decide (m - n < 0)) (show 0 < (m - n).natAbs by omega) Nat.one_pos
      (show 0 < 2 ^ 149 by positivity)

section Inv

variable {s : State}

/-- The invariant speaks of the port only by the response held. -/
theorem port_inv (hs : s.Inv) (p : Port)
    (hp : ∀ r, rspPending { s with port := p } = some r → legalResponse r) :
    State.Inv { s with port := p } :=
  { hs with portLegal := hp }

theorem atEdge_inv (hs : s.Inv) : (atEdge s).Inv := { hs with }

theorem resetCore_inv (hs : s.Inv) : (resetCore s).Inv :=
  { resetOf_inv hs.nmaxRange.1 hs.nmaxRange.2 with }

/-- A legal write in IDLE keeps the invariant: what a session asks of VARIANT and LEN is asked of none
here. -/
theorem writeReg_inv (hs : s.Inv) (hidle : s.mode = .idle) {r : Reg} {v : Word32}
    (hlegal : legalValue s.nmax r v = true) : (writeReg r v s).Inv := by
  have noSession : ∀ {P : Prop}, s.mode = .running → P := fun h => by simp [hidle] at h
  cases r with
  | variant => exact { hs with unusedZero := noSession }
  | gate => exact { hs with gateLegal := hlegal }
  | len => exact { hs with lenLegal := hlegal, tailZero := noSession }
  | chan => exact { hs with chanLegal := hlegal }
  | id | cap | status => exact hs
  | kp | ki | kd | mu | gain | srate | frames => exact { hs with }

/-- START leaves every element +0.0, in use or not. -/
theorem start_inv (hs : s.Inv) : State.Inv { zeroFilterState s with mode := .running } :=
  have zero : ∀ x ∈ List.replicate s.nmax (0 : F32), x = 0 := fun _ => List.eq_of_mem_replicate
  { hs with
    wLength := List.length_replicate
    dLength := List.length_replicate
    dSamples := fun x hx => ⟨0, by decide, zero x hx⟩
    prevErrInt := ⟨0, by decide, rfl⟩
    tapsNotNegZero := fun x hx => by rw [zero x hx]; decide
    tailZero := fun _ =>
      ⟨fun x hx => zero x (List.mem_of_mem_drop hx), fun x hx => zero x (List.mem_of_mem_drop hx)⟩
    unusedZero := fun _ => ⟨fun _ => ⟨zero, zero⟩, fun _ => ⟨rfl, rfl⟩⟩ }

theorem stop_inv (hs : s.Inv) : State.Inv { s with mode := .idle } :=
  { hs with
    tailZero := fun h => nomatch h
    unusedZero := fun h => nomatch h }

/-- PREVERR becomes a difference of two Samples (R604). -/
theorem pidStep_inv (hs : s.Inv) (hv : s.variant = .pid) {n f : Int} (hn : sampleInRange n = true)
    (hf : sampleInRange f = true) : (pidStep n f s).1.Inv :=
  have hn := (sampleInRange_iff n).1 hn
  have hf := (sampleInRange_iff f).1 hf
  { hs with
    prevErrInt := ⟨f - n, by omega, f32Sub_i2f (by omega) (by omega)⟩
    unusedZero := fun hm => ⟨(hs.unusedZero hm).1, fun h => absurd hv h⟩ }

/-- A Sample enters D, a sum never makes a tap -0.0 (R712), and the elements from LEN on stay (R700). -/
theorem lmsStep_inv (hs : s.Inv) (hv : s.variant = .lms) {n f : Int} (hn : sampleInRange n = true) :
    (lmsStep n f s).1.Inv :=
  { hs with
    wLength := (updateTaps_length _ _ _ _).trans hs.wLength
    dLength := (shiftIn_length _ _ _).trans hs.dLength
    dSamples := fun x hx => by
      rcases mem_shiftIn hx with rfl | hx
      · exact ⟨n, hn, rfl⟩
      · exact hs.dSamples x hx
    tapsNotNegZero := fun x hx => by
      rcases mem_updateTaps hx with hx | ⟨w, hw, d, -, rfl⟩
      · exact hs.tapsNotNegZero x hx
      · exact f32Add_ne_negZero (hs.tapsNotNegZero w hw)
    tailZero := fun hm => by
      simpa [lmsStep, tapCount] using hs.tailZero hm
    unusedZero := fun hm => ⟨fun h => absurd hv h, (hs.unusedZero hm).2⟩ }

theorem filterSample_inv (hs : s.Inv) {n f : Int} (hn : sampleInRange n = true)
    (hf : sampleInRange f = true) : (filterSample n f s).1.Inv := by
  rcases filterSample_cases n f s with h | ⟨hv, h⟩ | ⟨hv, h⟩ <;> rw [h]
  · exact hs
  · exact pidStep_inv hs hv hn hf
  · exact lmsStep_inv hs hv hn

theorem effect_inv (hs : s.Inv) {w : Option Word64} {u : State} (h : Effect s w u) : u.Inv := by
  cases h with
  | keep => exact hs
  | write _ _ _ hidle hlegal => exact writeReg_inv hs hidle hlegal
  | start => exact start_inv hs
  | stop => exact stop_inv hs
  | proc _ _ _ _ hn hf => exact filterSample_inv hs hn hf

end Inv

/-- Settles O47: a reset and each effect of an edge keep the invariant, and so does a new port, whose
response is the one held or a legal new one. -/
theorem everyStepKeepsTheInvariant : Obligations.EveryStepKeepsTheInvariant := by
  intro s t hs hstep
  rcases step_effect hstep with ⟨-, rfl⟩ | ⟨-, u, p, rfl, heff, hport⟩
  · exact resetCore_inv (atEdge_inv hs)
  · have held : ∀ r, rspPending { u with port := p } = some r → legalResponse r :=
      fun r hr => (hport r hr).elim (hs.portLegal r) id
    exact port_inv (effect_inv (atEdge_inv hs) heff) p held

/-! ## Filter state that no command can read (R130, R134) -/

/-- The state without its filter state. -/
def State.outside (s : State) : State := { s with w := [], d := [], integral := 0, prevErr := 0 }

theorem sameOutside_iff (s t : State) : sameOutside s t ↔ s.outside = t.outside := Iff.rfl

section Outside

variable {s t : State} (h : sameOutside s t)
include h

/-- What does not depend on the filter state is the same of two states with the same outside. -/
theorem eq_of_sameOutside {α : Type} (read : State → α) (hread : ∀ x : State, read x.outside = read x) :
    read s = read t := by
  rw [← hread s, ← hread t, (sameOutside_iff s t).1 h]

/-- An update that does not depend on the filter state keeps the outsides the same. -/
theorem sameOutside_update (update : State → State)
    (hupdate : ∀ x : State, update x.outside = (update x).outside) :
    sameOutside (update s) (update t) := by
  rw [sameOutside_iff, ← hupdate, ← hupdate, (sameOutside_iff s t).1 h]

theorem readReg_sameOutside (r : Reg) : readReg s r = readReg t r :=
  eq_of_sameOutside h (readReg · r) fun _ => by cases r <;> rfl

end Outside

theorem sameVisible_of_eq {s t : State} (h : s = t) : sameVisible s t := by
  subst h
  exact ⟨rfl, ⟨rfl, rfl⟩, fun _ => ⟨rfl, rfl, rfl, rfl⟩⟩

/-- The relation does not ask how the port stands, if it stands alike. -/
theorem sameVisible_port {s t : State} (h : sameVisible s t) (p : Port) :
    sameVisible { s with port := p } { t with port := p } where
  outside := sameOutside_update h.outside (fun x => { x with port := p }) fun _ => rfl
  lengths := h.lengths
  filter := h.filter

theorem sameVisible_atEdge {s t : State} (h : sameVisible s t) : sameVisible (atEdge s) (atEdge t) where
  outside := sameOutside_update h.outside atEdge fun _ => rfl
  lengths := h.lengths
  filter := h.filter

/-- In IDLE no filter state is compared. -/
theorem sameVisible_idle {s t : State} (houtside : sameOutside s t)
    (hlengths : s.w.length = t.w.length ∧ s.d.length = t.d.length) (hidle : s.mode = .idle) :
    sameVisible s t :=
  ⟨houtside, hlengths, fun h => by simp [hidle] at h⟩

/-! An LMS step's parts (43_lms.md R710). -/

theorem lmsStep_d (n f : Int) (s : State) :
    (lmsStep n f s).1.d = shiftIn (tapCount s) (i2f n) s.d := rfl

theorem lmsStep_acc (n f : Int) (s : State) :
    (lmsStep n f s).2 = dotFrom (tapCount s) 0x00000000#32 s.w (lmsStep n f s).1.d := rfl

theorem lmsStep_w (n f : Int) (s : State) :
    (lmsStep n f s).1.w = updateTaps (tapCount s) (f32Mul s.mu (f32Sub (i2f f) (lmsStep n f s).2)) s.w
      (lmsStep n f s).1.d := rfl

section Visible

variable {s t : State} (h : sameVisible s t)
include h

/-- RD_STATE sees the elements below LEN, INTEGRAL and PREVERR. -/
theorem stateElement_sameVisible (hmode : s.mode = .running) (sel : BitVec 4) (idx : BitVec 16) :
    stateElement s sel idx = stateElement t sel idx := by
  obtain ⟨hw, hd, hi, he⟩ := h.filter hmode
  have htaps : tapCount s = tapCount t := eq_of_sameOutside h.outside tapCount fun _ => rfl
  rw [← htaps] at hw hd
  have below : ∀ {xs ys : List F32}, xs.take (tapCount s) = ys.take (tapCount s) →
      idx.toNat < tapCount s → xs.getD idx.toNat 0 = ys.getD idx.toNat 0 := by
    intro xs ys hxy hlt
    rw [List.getD_eq_getElem?_getD, List.getD_eq_getElem?_getD, ← List.getElem?_take_of_lt hlt, hxy,
      List.getElem?_take_of_lt hlt]
  unfold stateElement
  rw [← htaps, hi, he]
  by_cases hlt : idx.toNat < tapCount s
  · rw [below hw hlt, below hd hlt]
  · simp only [if_neg hlt]

/-- An LMS step reads and writes the elements below LEN only (R700). -/
theorem lmsStep_sameVisible (hmode : s.mode = .running) (n f : Int) :
    (lmsStep n f s).2 = (lmsStep n f t).2 ∧ sameVisible (lmsStep n f s).1 (lmsStep n f t).1 := by
  obtain ⟨hw, hd, hi, he⟩ := h.filter hmode
  have htaps : tapCount s = tapCount t := eq_of_sameOutside h.outside tapCount fun _ => rfl
  have hmu : s.mu = t.mu := eq_of_sameOutside h.outside State.mu fun _ => rfl
  rw [← htaps] at hw hd
  have hline : (lmsStep n f s).1.d.take (tapCount s) = (lmsStep n f t).1.d.take (tapCount s) := by
    rw [lmsStep_d, lmsStep_d, ← htaps, take_shiftIn, take_shiftIn, hd]
  have hacc : (lmsStep n f s).2 = (lmsStep n f t).2 := by
    rw [lmsStep_acc, lmsStep_acc, ← htaps, dotFrom_take, hw, hline, ← dotFrom_take]
  have htap : (lmsStep n f s).1.w.take (tapCount s) = (lmsStep n f t).1.w.take (tapCount s) := by
    rw [lmsStep_w, lmsStep_w, ← htaps, hmu, hacc, take_updateTaps, take_updateTaps, hw, hline]
  refine ⟨hacc, h.outside, ?_, fun _ => ⟨?_, ?_, hi, he⟩⟩
  · simpa [lmsStep] using h.lengths
  · exact htaps ▸ htap
  · exact htaps ▸ hline

/-- A PID step reads nothing of W and D. -/
theorem pidStep_sameVisible (hmode : s.mode = .running) (n f : Int) :
    (pidStep n f s).2 = (pidStep n f t).2 ∧ sameVisible (pidStep n f s).1 (pidStep n f t).1 := by
  obtain ⟨hw, hd, hi, he⟩ := h.filter hmode
  have hgains : (s.kp, s.ki, s.kd) = (t.kp, t.ki, t.kd) :=
    eq_of_sameOutside h.outside (fun x => (x.kp, x.ki, x.kd)) fun _ => rfl
  obtain ⟨hkp, hki, hkd⟩ : s.kp = t.kp ∧ s.ki = t.ki ∧ s.kd = t.kd := by simpa using hgains
  refine ⟨?_, h.outside, h.lengths, fun _ => ⟨hw, hd, ?_, rfl⟩⟩ <;>
    simp only [pidStep, hkp, hki, hkd, hi, he]

/-- PROC's filter part reads and writes no other filter state than RD_STATE sees. -/
theorem filterSample_sameVisible (hmode : s.mode = .running) (n f : Int) :
    (filterSample n f s).2 = (filterSample n f t).2 ∧
      sameVisible (filterSample n f s).1 (filterSample n f t).1 := by
  have hruns : variantRuns s n = variantRuns t n :=
    eq_of_sameOutside h.outside (variantRuns · n) fun _ => rfl
  have hv : s.variant = t.variant := eq_of_sameOutside h.outside State.variant fun _ => rfl
  unfold filterSample variantStep
  rw [hruns, ← hv]
  split
  · split
    · exact pidStep_sameVisible h hmode n f
    · exact lmsStep_sameVisible h hmode n f
    · exact ⟨eq_of_sameOutside h.outside (directStep n f) fun _ => rfl, h⟩
  · exact ⟨rfl, h⟩

/-- A command answers two such states alike and leaves two such states. -/
theorem exec_sameVisible (i : Instr) :
    ∃ r u v, exec i s = respond r u ∧ exec i t = respond r v ∧ sameVisible u v := by
  have hmode : s.mode = t.mode := eq_of_sameOutside h.outside State.mode fun _ => rfl
  have same : ∀ r, ∃ r' u v, respond r s = respond r' u ∧ respond r t = respond r' v ∧ sameVisible u v :=
    fun r => ⟨r, s, t, rfl, rfl, h⟩
  cases i with
  | nop => exact same {}
  | cfgRd idx =>
    simp only [exec, execCfgRd]
    cases regAt idx with
    | none => exact same _
    | some r => simpa only [readReg_sameOutside h.outside r] using same { data := readReg t r }
  | cfgWr idx x =>
    simp only [exec, execCfgWr, ← hmode, ← eq_of_sameOutside h.outside State.nmax fun _ => rfl]
    cases hm : s.mode with
    | running => exact same _
    | idle =>
      cases regAt idx with
      | none => exact same _
      | some r =>
        dsimp only
        split_ifs
        · exact same _
        · refine ⟨{}, _, _, rfl, rfl, sameVisible_idle ?_ ?_ ?_⟩
          · exact sameOutside_update h.outside (writeReg r x) fun _ => by cases r <;> rfl
          · simpa using h.lengths
          · simpa using hm
        · exact same _
  | start =>
    simp only [exec, execStart, ← hmode]
    cases s.mode with
    | running => exact same _
    | idle =>
      have hzero := eq_of_sameOutside h.outside
        (fun x : State => ({ zeroFilterState x with mode := .running } : State)) fun _ => rfl
      exact ⟨{}, _, _, rfl, rfl, sameVisible_of_eq hzero⟩
  | stop =>
    simp only [exec, execStop, ← hmode]
    cases s.mode with
    | idle => exact same _
    | running =>
      have hout := sameOutside_update h.outside (fun x => { x with mode := .idle }) fun _ => rfl
      exact ⟨{}, _, _, rfl, rfl, sameVisible_idle hout h.lengths rfl⟩
  | proc n f =>
    simp only [exec, execProc, ← hmode]
    cases hm : s.mode with
    | idle => exact same _
    | running =>
      obtain ⟨hc, hvis⟩ := filterSample_sameVisible h hm n f
      have hgate : gateOpen s n = gateOpen t n := eq_of_sameOutside h.outside (gateOpen · n) fun _ => rfl
      have hrsp : procResponse n f s = procResponse n f t := by simp only [procResponse, hgate, hc]
      exact ⟨_, _, _, rfl, by rw [hrsp], hvis⟩
  | procNoin =>
    simp only [exec, execProcNoin, ← hmode]
    cases s.mode <;> exact same _
  | rdState sel idx =>
    simp only [exec, execRdState, ← hmode]
    cases hm : s.mode with
    | idle => exact same _
    | running =>
      rw [← stateElement_sameVisible h hm]
      cases stateElement s sel idx <;> exact same _

theorem acceptWord_sameVisible (w : Word64) :
    ∃ u v, acceptWord w s = .next u ∧ acceptWord w t = .next v ∧ sameVisible u v := by
  unfold acceptWord
  cases decode w with
  | ok i =>
    obtain ⟨r, u, v, hs, ht, hvis⟩ := exec_sameVisible h i
    exact ⟨_, _, hs, ht, sameVisible_port hvis _⟩
  | error _ => exact ⟨_, _, rfl, rfl, sameVisible_port h _⟩

/-- An edge takes two such states to two such states. -/
theorem step_sameVisible : ∃ u v, step s = .next u ∧ step t = .next v ∧ sameVisible u v := by
  have hedge : nextEdge s = nextEdge t := eq_of_sameOutside h.outside nextEdge fun _ => rfl
  have hport : s.port = t.port := eq_of_sameOutside h.outside State.port fun _ => rfl
  have hat := sameVisible_atEdge h
  unfold step edgeStep clockEdge
  rw [← hedge, atEdge_port, atEdge_port, ← hport]
  cases (nextEdge s).rst with
  | true =>
    have hreset := eq_of_sameOutside h.outside (fun x => resetCore (atEdge x)) fun _ => rfl
    exact ⟨_, _, rfl, rfl, sameVisible_of_eq hreset⟩
  | false =>
    cases s.port with
    | ready =>
      cases (nextEdge s).cmdValid with
      | true => exact acceptWord_sameVisible hat _
      | false => exact ⟨_, _, rfl, rfl, hat⟩
    | busy r =>
      cases (nextEdge s).done with
      | true => exact ⟨_, _, rfl, rfl, sameVisible_port hat _⟩
      | false => exact ⟨_, _, rfl, rfl, hat⟩
    | offering r =>
      cases (nextEdge s).rspReady with
      | true => exact ⟨_, _, rfl, rfl, sameVisible_port hat _⟩
      | false => exact ⟨_, _, rfl, rfl, hat⟩

end Visible

/-- Settles O48: an edge takes two such states to two such states, and a step has one next state. -/
theorem unreadableFilterStateNeverShows : Obligations.UnreadableFilterStateNeverShows := by
  intro s t s' t' h hs ht
  obtain ⟨u, v, hu, hv, hvis⟩ := step_sameVisible h
  rw [hs, Host.Outcome.next.injEq] at hu
  rw [ht, Host.Outcome.next.injEq] at hv
  rwa [hu, hv]

end Sys2Proof.Machine

namespace Sys2Proof

/-! # Reading the core: the byte transport and the commands that only answer (spec 20_memory.md)

The two claims of section 2 that hold of every word and every state: eight bytes in transport order are
the word (R203), and a command that only answers may be repeated (R207). -/

/-! ## The byte transport (R203) -/

theorem getLsbD_byteOfWord (w : Word64) (k : Nat) {j : Nat} (hj : j < 8) :
    (byteOfWord w k).getLsbD j = w.getLsbD (8 * k + j) := by
  rw [byteOfWord, BitVec.getLsbD_extractLsb', decide_eq_true hj, Bool.true_and]

/-- Byte k continues the k bytes below it. -/
theorem byteOfWord_append (w : Word64) (k : Nat) {n : Nat} (hn : 8 * k = n) :
    byteOfWord w k ++ w.extractLsb' 0 n = w.extractLsb' 0 (8 + n) :=
  BitVec.extractLsb'_append_extractLsb'_eq_extractLsb' (by omega)

/-- A word is its eight bytes: they are joined from byte 0 up. -/
theorem wordOfBytes_byteOfWord (w : Word64) :
    wordOfBytes (byteOfWord w 0) (byteOfWord w 1) (byteOfWord w 2) (byteOfWord w 3) (byteOfWord w 4)
      (byteOfWord w 5) (byteOfWord w 6) (byteOfWord w 7) = w := by
  have lowest : byteOfWord w 0 = w.extractLsb' 0 8 := rfl
  rw [wordOfBytes, lowest, byteOfWord_append w 1 rfl, byteOfWord_append w 2 rfl,
    byteOfWord_append w 3 rfl, byteOfWord_append w 4 rfl, byteOfWord_append w 5 rfl,
    byteOfWord_append w 6 rfl, byteOfWord_append w 7 rfl]
  exact BitVec.extractLsb'_eq_self

/-- The transport gives back the word that the next eight bytes carry, and keeps the rest. -/
theorem takeWord_bytesOfWord (w : Word64) (rest : List Byte) :
    takeWord (bytesOfWord w ++ rest) = some (w, rest) :=
  congrArg (fun v => some (v, rest)) (wordOfBytes_byteOfWord w)

/-- Settles O6: bit j of byte k is bit 8k+j of the word, and a word is its eight bytes. -/
theorem byteTransportCarriesTheWord : Obligations.ByteTransportCarriesTheWord :=
  fun w rest => ⟨fun k _ _ hj => getLsbD_byteOfWord w k hj, takeWord_bytesOfWord w rest⟩

end Sys2Proof

namespace Sys2Proof.Machine

/-! ## The commands that only answer (R207) -/

/-- A reading command is answered from the state and leaves it (40_control.md R400, R410; 41_sample.md
R540; 45_readback.md R850). -/
theorem exec_reading {i : Instr}
    (hi : i = .nop ∨ (∃ idx, i = .cfgRd idx) ∨ (∃ sel idx, i = .rdState sel idx) ∨ i = .procNoin)
    (s : State) : ∃ r, exec i s = respond r s := by
  rcases hi with rfl | ⟨idx, rfl⟩ | ⟨sel, idx, rfl⟩ | rfl
  · exact ⟨_, rfl⟩
  · simp only [exec, execCfgRd]
    cases regAt idx <;> exact ⟨_, rfl⟩
  · simp only [exec, execRdState]
    cases s.mode with
    | idle => exact ⟨_, rfl⟩
    | running => cases stateElement s sel idx <;> exact ⟨_, rfl⟩
  · simp only [exec, execProcNoin]
    cases s.mode <;> exact ⟨_, rfl⟩

/-- A command that leaves the core as it was, its answer apart, does the same when it comes again: no
command reads the port (30_encoding.md R305). -/
theorem exec_again {i : Instr} {s : State} {p : Port} (h : exec i s = .next { s with port := p }) :
    exec i { s with port := p } = .next { s with port := p } := by
  obtain ⟨u, r, hs, hp, -, hedges⟩ := exec_ports i s p s.edges
  rw [h, Host.Outcome.next.injEq] at hs
  refine hp.trans ?_
  rw [hs, ← hedges]

/-- Settles O38: a reading command leaves all but its answer, so it may come again. -/
theorem readingCommandsChangeNothing : Obligations.ReadingCommandsChangeNothing := by
  intro i s t hi h
  obtain ⟨r, hr⟩ := exec_reading hi s
  obtain rfl : _ = t := Host.Outcome.next.inj (hr.symm.trans h)
  exact ⟨rfl, exec_again h⟩

end Sys2Proof.Machine

namespace Sys2Proof

/-! # Encoding (spec 30_encoding.md)

Words and commands (sections 2, 4 and 6), then the handshake (section 1), the response word (section 3)
and the assembler (section 6). -/

/-! ## The encoder (R306 to R308, R341) -/

theorem fieldsOfInstr_op (i : Instr) : (fieldsOfInstr i).op = opcodeBits (opcodeOfInstr i) := by
  cases i <;> rfl

theorem unusedZero_fieldsOfInstr (i : Instr) :
    unusedZero (opcodeOfInstr i) (fieldsOfInstr i) = true := by
  cases i <;> rfl

/-- A value is its two halves (R307). -/
theorem halves_append (v : Word32) : v.extractLsb' 16 16 ++ v.extractLsb' 0 16 = v := by
  rw [BitVec.extractLsb'_append_extractLsb'_eq_extractLsb' (by decide)]
  exact BitVec.extractLsb'_eq_self

/-- Operand assembly undoes the encoder where every operand is in range. -/
theorem operandsOf_fieldsOfInstr {i : Instr} (hi : i.wellFormed = true) :
    operandsOf (opcodeOfInstr i) (fieldsOfInstr i) = i := by
  cases i with
  | cfgWr idx v => exact congrArg (Instr.cfgWr idx) (halves_append v)
  | proc n f =>
    simp only [Instr.wellFormed, Bool.and_eq_true] at hi
    exact congrArg₂ Instr.proc (sext16_bits16 hi.1) (sext16_bits16 hi.2)
  | _ => rfl

/-- Settles O1: the encoder's fields carry the command's opcode, nothing where it uses none, and its
operands. -/
theorem encodedCommandDecodesToItself : Obligations.EncodedCommandDecodesToItself := by
  intro i hi
  rw [decode_encode_eq, decodeFields, fieldsOfInstr_op, opcodeOf_opcodeBits]
  simp only [unusedZero_fieldsOfInstr, operandsOf_fieldsOfInstr hi, if_true]

/-- Settles O2: the fields that spell a command are those its encoder writes. -/
theorem decodedWordIsItsCommandsOnlyWord : Obligations.DecodedWordIsItsCommandsOnlyWord :=
  fun _ _ h => ⟨encode_of_decode h, wellFormed_of_decode h⟩

/-- Settles O5: each word is evaluated. -/
theorem writtenOutWordsDecode : Obligations.WrittenOutWordsDecode := by
  unfold Obligations.WrittenOutWordsDecode
  decide

/-! ## The mask and match table (R330, R331) -/

@[simp] theorem opcodeOfInstr_operandsOf (o : Opcode) (f : Fields) :
    opcodeOfInstr (operandsOf o f) = o := by cases o <;> rfl

/-- The fields a row's mask keeps: OP and every field the opcode does not use (R308). -/
def maskFields : Opcode → Fields
  | .nop | .start | .stop | .procNoin => ⟨.allOnes 4, .allOnes 4, .allOnes 8, .allOnes 16, .allOnes 16,
      .allOnes 16⟩
  | .cfgRd   => ⟨.allOnes 4, .allOnes 4, .allOnes 8, 0, .allOnes 16, .allOnes 16⟩
  | .cfgWr   => ⟨.allOnes 4, .allOnes 4, .allOnes 8, 0, 0, 0⟩
  | .proc    => ⟨.allOnes 4, .allOnes 4, .allOnes 8, .allOnes 16, 0, 0⟩
  | .rdState => ⟨.allOnes 4, 0, .allOnes 8, 0, .allOnes 16, .allOnes 16⟩

/-- A row's pattern: the opcode's bits and nothing else. -/
def patternFields (o : Opcode) : Fields := ⟨opcodeBits o, 0, 0, 0, 0, 0⟩

theorem opcodeTable_row_eq : ∀ row ∈ opcodeTable,
    row = ⟨row.opcode, wordOf (maskFields row.opcode), wordOf (patternFields row.opcode)⟩ := by decide

theorem exists_row_of_opcode (o : Opcode) : ∃ row ∈ opcodeTable, row.opcode = o := by
  cases o <;> decide

theorem wordOf_inj {f g : Fields} : wordOf f = wordOf g ↔ f = g :=
  ⟨fun h => by rw [← fieldsOf_wordOf f, h, fieldsOf_wordOf], congrArg wordOf⟩

/-- A mask and a pattern ask for the opcode's bits and for zero in every field it does not use. -/
theorem wordOf_and_mask_eq_pattern_iff (f : Fields) (o : Opcode) :
    wordOf f &&& wordOf (maskFields o) = wordOf (patternFields o) ↔
      f.op = opcodeBits o ∧ unusedZero o f = true := by
  rw [Laws.wordOf_and, wordOf_inj, patternFields, Fields.mk.injEq]
  cases o <;> simp [maskFields, unusedZero, and_assoc, -BitVec.reduceAllOnes]

/-- What it is for a word to match a row. -/
theorem matches_row_iff {row : OpcodeRow} (hrow : row ∈ opcodeTable) (w : Word64) :
    w &&& row.mask = row.pattern ↔
      opcodeOf (fieldsOf w).op = some row.opcode ∧ unusedZero row.opcode (fieldsOf w) = true := by
  rw [opcodeTable_row_eq row hrow, opcodeOf_eq_some_iff, ← wordOf_and_mask_eq_pattern_iff,
    wordOf_fieldsOf]

/-- Why a word is illegal: its OP selects no opcode, or a field that its opcode does not use is not 0. -/
theorem decode_eq_error_iff (w : Word64) (e : Illegal) :
    decode w = .error e ↔
      (e = .reservedOpcode ∧ opcodeOf (fieldsOf w).op = none) ∨
      (e = .nonzeroField ∧
        ∃ o, opcodeOf (fieldsOf w).op = some o ∧ unusedZero o (fieldsOf w) = false) := by
  unfold decode decodeFields
  cases opcodeOf (fieldsOf w).op with
  | none => cases e <;> simp
  | some o => cases e <;> cases hz : unusedZero o (fieldsOf w) <;> simp [hz]

/-- Settles O3: a word matches a row exactly when its OP selects the row's opcode and the fields that
the opcode does not use are 0, which is what the decoder asks. -/
theorem decoderFollowsTheMatchTable : Obligations.DecoderFollowsTheMatchTable := by
  refine fun w => ⟨fun row hrow hmatch => ?_, fun hnone => ?_, ?_, ?_⟩
  · obtain ⟨hop, hz⟩ := (matches_row_iff hrow w).1 hmatch
    exact ⟨_, (decode_eq_ok_iff w _).2 ⟨_, hop, hz, rfl⟩, opcodeOfInstr_operandsOf _ _⟩
  · cases hd : decode w with
    | error e => exact ⟨e, rfl⟩
    | ok i =>
      obtain ⟨o, hop, hz, -⟩ := (decode_eq_ok_iff w i).1 hd
      obtain ⟨row, hrow, rfl⟩ := exists_row_of_opcode o
      exact absurd ((matches_row_iff hrow w).2 ⟨hop, hz⟩) (hnone row hrow)
  · simp [decode_eq_error_iff, opcodeOf_eq_none_iff, fieldsOf]
  · simp [decode_eq_error_iff, fieldsOf]

/-- Settles O4: two rows that match one word have its one opcode, and a row is fixed by its opcode. -/
theorem noWordMatchesTwoOpcodePatterns : Obligations.NoWordMatchesTwoOpcodePatterns := by
  intro w r hr q hq hmr hmq
  have hopcode : r.opcode = q.opcode := Option.some.inj <|
    ((matches_row_iff hr w).1 hmr).1.symm.trans ((matches_row_iff hq w).1 hmq).1
  rw [opcodeTable_row_eq r hr, opcodeTable_row_eq q hq, hopcode]

end Sys2Proof

namespace Sys2Proof.Machine

/-! ## The transaction-level step (R305) -/

/-- A transaction frees the port and hands over the response. -/
theorem transact_of_accept {w r : Word64} {s u : State}
    (h : acceptWord w s = .next { u with port := .busy r }) :
    transact w s = some ({ u with port := .ready }, r) := by
  rw [transact, h]
  rfl

/-- The state without its ports and the edges to come: what a transaction reads and changes. -/
def State.portless (s : State) : State := { s with port := .ready, edges := [] }

theorem eq_of_portless_eq {s t : State} (h : s.portless = t.portless) :
    s = { t with port := s.port, edges := s.edges } :=
  congrArg (fun x : State => { x with port := s.port, edges := s.edges }) h

/-- A word is accepted with the response that `transact` gives, and the same from two states that
differ in their ports only. -/
theorem acceptWord_transact (w : Word64) {s s' : State} (h : s'.portless = s.portless) :
    ∃ t r, transact w s = some (t, r) ∧ t.port = .ready ∧ t.nmax = s.nmax ∧ t.edges = s.edges ∧
      acceptWord w s' = .next { t with port := .busy r, edges := s'.edges } ∧
      transact w s' = some ({ t with edges := s'.edges }, r) := by
  obtain ⟨u, r, hs, hs', hnmax, hedges⟩ := acceptWord_ports w s s'.port s'.edges
  rw [← eq_of_portless_eq h] at hs'
  exact ⟨{ u with port := .ready }, r, transact_of_accept hs, rfl, hnmax, hedges, hs',
    transact_of_accept (u := { u with edges := s'.edges }) hs'⟩

/-- Settles O9: the answer that `acceptWord_transact` names. -/
theorem everyCommandWordIsAnswered : Obligations.EveryCommandWordIsAnswered := by
  intro w s
  obtain ⟨t, r, htransact, hport, hnmax, hedges, -⟩ := acceptWord_transact w (s := s) rfl
  exact ⟨t, r, htransact, hport, hnmax, hedges⟩

theorem transactAll_cons {w : Word64} {ws rs : List Word64} {s t u : State} {r : Word64}
    (hw : transact w s = some (t, r)) (hws : transactAll ws t = some (u, rs)) :
    transactAll (w :: ws) s = some (u, r :: rs) := by
  simp only [transactAll, hw, hws]

theorem transactAll_append {ws vs rs qs : List Word64} {s t u : State}
    (hws : transactAll ws s = some (t, rs)) (hvs : transactAll vs t = some (u, qs)) :
    transactAll (ws ++ vs) s = some (u, rs ++ qs) := by
  induction ws generalizing s rs with
  | nil =>
    obtain ⟨rfl, rfl⟩ : s = t ∧ [] = rs := by simpa [transactAll] using hws
    exact hvs
  | cons w ws ih =>
    obtain ⟨t₁, r, hw, -⟩ := acceptWord_transact w (s := s) rfl
    simp only [transactAll, hw] at hws
    split at hws
    · cases hws
    case h_2 t₂ rs' hrest =>
      obtain ⟨rfl, rfl⟩ : t₂ = t ∧ r :: rs' = rs := by simpa using hws
      exact transactAll_cons hw (ih hrest)

/-- A command sequence does the same from two states that differ in their ports only. -/
theorem transactAll_portless (ws : List Word64) {s s' : State} (h : s'.portless = s.portless) :
    ∃ u u' rs, transactAll ws s = some (u, rs) ∧ transactAll ws s' = some (u', rs) ∧
      u'.portless = u.portless := by
  induction ws generalizing s s' with
  | nil => exact ⟨s, s', [], rfl, rfl, h⟩
  | cons w ws ih =>
    obtain ⟨t, r, hs, -, -, -, -, hs'⟩ := acceptWord_transact w h
    obtain ⟨u, u', rs, hu, hu', heq⟩ := ih (s := t) (s' := { t with edges := s'.edges }) rfl
    exact ⟨u, u', r :: rs, transactAll_cons hs hu, transactAll_cons hs' hu', heq⟩

/-! ## One edge of the handshake (R301 to R304) -/

@[simp] theorem atEdge_cons {s : State} {e : Edge} {rest : List Edge} (h : s.edges = e :: rest) :
    atEdge s = { s with edges := rest } := by rw [atEdge, h]; rfl

/-- What holds of every listed edge and of a quiet one holds of the next. -/
theorem nextEdge_of_forall {P : Edge → Prop} (hquiet : P quietEdge) {s : State}
    (h : ∀ e ∈ s.edges, P e) : P (nextEdge s) := by
  cases he : s.edges with
  | nil => rwa [nextEdge_nil he]
  | cons e rest => rw [nextEdge_cons he]; exact h e (by simp [he])

/-- An edge that accepts a word: the core holds the state and the response of `transact`. -/
theorem step_accepted {s : State} {w : Word64} (h : acceptedWord s = some w) :
    ∃ t r, transact w s = some (t, r) ∧
      step s = .next { t with port := .busy r, edges := s.edges.tail } := by
  obtain ⟨hrst, hport, hvalid, rfl⟩ := (acceptedWord_eq_some_iff s w).1 h
  obtain ⟨t, r, htransact, -, -, -, haccept, -⟩ :=
    acceptWord_transact (nextEdge s).cmdData (s := s) (s' := atEdge s) rfl
  exact ⟨t, r, htransact, (step_accept hport hrst hvalid).trans haccept⟩

theorem acceptedWord_eq_none_of_port {s : State} (h : s.port ≠ .ready) : acceptedWord s = none := by
  simp [acceptedWord, cmdReady, h]

theorem takenWord_eq_none_of_ready {s : State} (h : s.port = .ready) : takenWord s = none := by
  simp [takenWord, rspOffered, h]

theorem takenWord_eq_none_of_busy {s : State} {r : Word64} (h : s.port = .busy r) :
    takenWord s = none := by
  simp [takenWord, rspOffered, h]

theorem takenWord_of_offering {s : State} {r : Word64} (hport : s.port = .offering r)
    (hrst : (nextEdge s).rst = false) :
    takenWord s = if (nextEdge s).rspReady then some r else none := by
  simp [takenWord, rspOffered, hport, hrst]

/-- Settles O7: the edge accepts the word, and the word decodes. -/
theorem readyEdgeRunsTheDecodedCommand : Obligations.ReadyEdgeRunsTheDecodedCommand := by
  intro s e rest i hedges hport hrst hvalid hdecode
  rw [← nextEdge_cons hedges] at hrst hvalid hdecode
  rw [step_accept hport hrst hvalid, acceptWord, hdecode, atEdge_cons hedges]

/-- Settles O8: the decoder's error is the first check, before any of the command's own. -/
theorem illegalWordIsAnsweredWithoutEffect : Obligations.IllegalWordIsAnsweredWithoutEffect := by
  intro s e rest why hedges hport hrst hvalid hdecode
  rw [← nextEdge_cons hedges] at hrst hvalid hdecode
  rw [step_accept hport hrst hvalid, acceptWord, hdecode, atEdge_cons hedges]
  rfl

/-- Settles O55: an edge in each phase of the handshake. -/
theorem handshakePhaseFollowsTheEdge : Obligations.HandshakePhaseFollowsTheEdge := by
  intro s e rest r hedges hrst
  have hnext := nextEdge_cons hedges
  have hat := atEdge_cons hedges
  rw [← hnext] at hrst ⊢
  refine ⟨fun hport hvalid => ?_, fun hport hdone => ?_, fun hport hdone => ?_,
    fun hport htake => ⟨?_, ?_⟩, fun hport htake => ⟨?_, ?_⟩⟩
  · have haccepted := (acceptedWord_eq_some_iff s _).2 ⟨hrst, hport, hvalid, rfl⟩
    obtain ⟨t, q, -, hstep⟩ := step_accepted haccepted
    exact ⟨_, q, hstep, haccepted, rfl, rfl, rfl, rfl⟩
  · simp [step_busy hport hrst, hdone, hat]
  · simp [step_busy hport hrst, hdone, hat, ← hport]
  · simp [takenWord_of_offering hport hrst, htake]
  · simp [step_offering hport hrst, htake, hat]
  · simp [takenWord_of_offering hport hrst, htake]
  · simp [step_offering hport hrst, htake, hat, ← hport]

/-- Settles O10: the port after each kind of edge. -/
theorem cmdReadyFollowsTheHandshake : Obligations.CmdReadyFollowsTheHandshake := by
  intro s t hstep
  rcases step_cases hstep with ⟨hrst, rfl⟩ | ⟨hrst, hport, hvalid, rfl⟩ | ⟨hrst, hport, hvalid, -⟩ |
    ⟨hrst, r, hport, rfl⟩ | ⟨hrst, r, hport, rfl⟩
  · simp [hrst, cmdReady]
  · simp [hrst, acceptedWord, hvalid, takenWord_eq_none_of_ready hport, cmdReady, hport]
  · have haccepted := (acceptedWord_eq_some_iff s _).2 ⟨hrst, hport, hvalid, rfl⟩
    obtain ⟨u, r, -, hnext⟩ := step_accepted haccepted
    obtain rfl : _ = t := Host.Outcome.next.inj (hnext.symm.trans hstep)
    simp [hrst, haccepted, cmdReady]
  · have hbusy : s.port ≠ .ready := by simp [hport]
    simp only [hrst, acceptedWord_eq_none_of_port hbusy, takenWord_eq_none_of_busy hport, cmdReady]
    split <;> simp [hport]
  · have hoffering : s.port ≠ .ready := by simp [hport]
    simp only [hrst, acceptedWord_eq_none_of_port hoffering, takenWord_of_offering hport hrst, cmdReady]
    split <;> simp [hport]

/-- Settles O11: without a reset, only taking a response ends it. -/
theorem pendingResponseIsHeldUntilTaken : Obligations.PendingResponseIsHeldUntilTaken := by
  intro s t r hstep hrst htaken hpending
  rcases hport : s.port with _ | q | q
  case ready => simp [rspPending, hport] at hpending
  all_goals obtain rfl : q = r := by simpa [rspPending, hport] using hpending
  case busy =>
    obtain rfl : _ = t := Host.Outcome.next.inj ((step_busy hport hrst).symm.trans hstep)
    refine ⟨?_, fun h => by simp [rspOffered, hport] at h⟩
    cases (nextEdge s).done <;> rfl
  case offering =>
    have hkept : (nextEdge s).rspReady = false := by
      simpa [takenWord_of_offering hport hrst] using htaken
    obtain rfl : _ = t := Host.Outcome.next.inj ((step_offering hport hrst).symm.trans hstep)
    simp [rspPending, rspOffered, hkept]

/-! ## Any number of edges -/

theorem runEdges_succ {k : Nat} {s t u : State} {ws rs : List Word64} (hstep : step s = .next t)
    (hrun : runEdges k t = some (u, ws, rs)) :
    runEdges (k + 1) s = some (u, (acceptedWord s).toList ++ ws, (takenWord s).toList ++ rs) := by
  simp only [runEdges, hstep, hrun]

/-- One edge without reset against the transactions: the word accepted at it, if one is, gives the
core's state, and its response joins the one still to be taken. -/
theorem step_refines {s : State} (hrst : (nextEdge s).rst = false) :
    ∃ t u qs, step s = .next t ∧ transactAll (acceptedWord s).toList s = some (u, qs) ∧
      t.portless = u.portless ∧ t.edges = s.edges.tail ∧
      (rspPending s).toList ++ qs = (takenWord s).toList ++ (rspPending t).toList := by
  rcases hport : s.port with _ | r | r
  case ready =>
    rw [takenWord_eq_none_of_ready hport]
    cases haccepted : acceptedWord s with
    | none =>
      have hvalid : (nextEdge s).cmdValid = false := by
        simpa [acceptedWord, cmdReady, hport, hrst] using haccepted
      refine ⟨atEdge s, s, [], ?_, rfl, rfl, rfl, ?_⟩
      · simp [step, edgeStep, clockEdge, hrst, hport, hvalid]
      · simp [rspPending, hport]
    | some w =>
      obtain ⟨t, r, htransact, hstep⟩ := step_accepted haccepted
      exact ⟨_, t, [r], hstep, transactAll_cons htransact rfl, rfl, rfl, by simp [rspPending, hport]⟩
  case busy =>
    rw [acceptedWord_eq_none_of_port (by simp [hport]), takenWord_eq_none_of_busy hport]
    refine ⟨_, s, [], step_busy hport hrst, rfl, rfl, rfl, ?_⟩
    cases (nextEdge s).done <;> simp [rspPending, hport]
  case offering =>
    rw [acceptedWord_eq_none_of_port (by simp [hport]), takenWord_of_offering hport hrst]
    refine ⟨_, s, [], step_offering hport hrst, rfl, rfl, rfl, ?_⟩
    cases (nextEdge s).rspReady <;> simp [rspPending, hport]

/-- Any number of edges without reset against the transactions, from any phase of the handshake: a
response owed at the start comes first. -/
theorem runEdges_refines (k : Nat) {s : State} (hrst : ∀ e ∈ s.edges, e.rst = false) :
    ∃ t ws rs u qs, runEdges k s = some (t, ws, rs) ∧ transactAll ws s = some (u, qs) ∧
      t.portless = u.portless ∧ t.edges = s.edges.drop k ∧
      (rspPending s).toList ++ qs = rs ++ (rspPending t).toList := by
  induction k generalizing s with
  | zero => exact ⟨s, [], [], s, [], rfl, rfl, rfl, rfl, by simp⟩
  | succ k ih =>
    obtain ⟨s₁, u₁, qs₁, hstep, hfirst, hcore₁, hedges₁, hrsp₁⟩ := step_refines (nextEdge_rst hrst)
    have hrst₁ : ∀ e ∈ s₁.edges, e.rst = false :=
      fun e he => hrst e (List.mem_of_mem_tail (hedges₁ ▸ he))
    obtain ⟨t, ws, rs, u, qs, hrun, hrest, hcore, hedges, hrsp⟩ := ih hrst₁
    obtain ⟨u', v, qs', hrest', hrest₂, hcore₂⟩ := transactAll_portless ws hcore₁.symm
    obtain ⟨rfl, rfl⟩ : u' = u ∧ qs' = qs := by simpa [hrest'] using hrest
    refine ⟨t, _, _, v, qs₁ ++ qs', runEdges_succ hstep hrun, transactAll_append hfirst hrest₂,
      hcore.trans hcore₂.symm, ?_, ?_⟩
    · rw [hedges, hedges₁, List.drop_tail]
    · rw [← List.append_assoc, hrsp₁, List.append_assoc, hrsp, List.append_assoc]

/-- Settles O12: `runEdges_refines` from a core that owes no response. -/
theorem clockedRunIsItsTransactionSequence : Obligations.ClockedRunIsItsTransactionSequence := by
  intro k s hport hrst
  obtain ⟨t, ws, rs, u, qs, hrun, hall, hcore, hedges, hrsp⟩ := runEdges_refines k hrst
  have howed : rspPending s = none := by simp [rspPending, hport]
  rw [howed] at hrsp
  refine ⟨t, ws, rs, u, hrun, hrsp ▸ hall, ?_⟩
  rw [← hedges]
  exact eq_of_portless_eq hcore

/-- While no command is offered, no word is accepted. -/
theorem runEdges_acceptsNothing (k : Nat) {s : State}
    (h : ∀ e ∈ s.edges, e.rst = false ∧ e.cmdValid = false) :
    ∃ t rs, runEdges k s = some (t, [], rs) := by
  induction k generalizing s with
  | zero => exact ⟨s, [], rfl⟩
  | succ k ih =>
    obtain ⟨hrst, hvalid⟩ := nextEdge_of_forall (P := fun e => e.rst = false ∧ e.cmdValid = false)
      ⟨rfl, rfl⟩ h
    obtain ⟨s₁, -, -, hstep, -, -, hedges, -⟩ := step_refines hrst
    obtain ⟨t, rs, hrun⟩ := ih (s := s₁) fun e he => h e (List.mem_of_mem_tail (hedges ▸ he))
    have hnone : acceptedWord s = none := by simp [acceptedWord, hvalid]
    exact ⟨t, _, by simpa [hnone] using runEdges_succ hstep hrun⟩

/-- Settles O13: with no word accepted the transactions of the run are none, and they give its state. -/
theorem nothingHappensWithoutACommand : Obligations.NothingHappensWithoutACommand := by
  intro k s h
  obtain ⟨t', ws, rs', u, qs, hrun', hall, hcore, hedges, hrsp⟩ :=
    runEdges_refines k fun e he => (h e he).1
  obtain ⟨t, rs, hrun⟩ := runEdges_acceptsNothing k h
  obtain ⟨rfl, rfl, rfl⟩ : t = t' ∧ [] = ws ∧ rs = rs' := by simpa [hrun] using hrun'
  obtain ⟨rfl, rfl⟩ : s = u ∧ [] = qs := by simpa [transactAll] using hall
  refine ⟨t, rs, hrun, ?_, fun hport => ?_⟩
  · rw [← hedges]
    exact eq_of_portless_eq hcore
  · have howed : rspPending s = none := by simp [rspPending, hport]
    have hnone : rspPending t = none := by simp_all
    rcases ht : t.port with _ | r | r
    · rfl
    all_goals simp [rspPending, ht] at hnone

end Sys2Proof.Machine

namespace Sys2Proof.Machine

/-! ## Every accepted command is answered (R302) -/

theorem runEdges_append {j k : Nat} {s t u : State} {ws vs rs qs : List Word64}
    (hj : runEdges j s = some (t, ws, rs)) (hk : runEdges k t = some (u, vs, qs)) :
    runEdges (j + k) s = some (u, ws ++ vs, rs ++ qs) := by
  induction j generalizing s ws rs with
  | zero =>
    obtain ⟨rfl, rfl, rfl⟩ : s = t ∧ [] = ws ∧ [] = rs := by simpa [runEdges] using hj
    simpa using hk
  | succ j ih =>
    simp only [runEdges] at hj
    split at hj
    case h_1 s₁ hstep =>
      split at hj
      case h_1 t₁ ws' rs' hrest =>
        obtain ⟨rfl, rfl, rfl⟩ : t₁ = t ∧ _ = ws ∧ _ = rs := by simpa using hj
        rw [Nat.succ_add, List.append_assoc, List.append_assoc]
        exact runEdges_succ hstep (ih hrest)
      · cases hj
    all_goals cases hj

/-- The edge that accepts a word, as a run of one edge. -/
theorem runEdges_accepted {s : State} {w : Word64} (h : acceptedWord s = some w) :
    ∃ t r, transact w s = some (t, r) ∧
      runEdges 1 s = some ({ t with port := .busy r, edges := s.edges.tail }, [w], []) := by
  obtain ⟨t, r, htransact, hstep⟩ := step_accepted h
  have hready : s.port = .ready := ((acceptedWord_eq_some_iff s w).1 h).2.1
  refine ⟨t, r, htransact, ?_⟩
  simpa [h, takenWord_eq_none_of_ready hready] using runEdges_succ hstep (k := 0) rfl

/-- An edge while a response is owed, as a run of one edge. -/
theorem runEdges_busy {s : State} {r : Word64} (hport : s.port = .busy r)
    (hrst : (nextEdge s).rst = false) :
    runEdges 1 s = some ({ s with port := if (nextEdge s).done then .offering r else .busy r,
                                  edges := s.edges.tail }, [], []) := by
  simpa [acceptedWord_eq_none_of_port (s := s) (by simp [hport]), takenWord_eq_none_of_busy hport]
    using runEdges_succ (step_busy hport hrst) (k := 0) rfl

/-- Edges that hold the response back leave the core as it is. -/
theorem runEdges_wait {s : State} {r : Word64} {wait rest : List Edge} (hport : s.port = .busy r)
    (hedges : s.edges = wait ++ rest) (hwait : ∀ x ∈ wait, x.rst = false ∧ x.done = false) :
    ∀ k ≤ wait.length, runEdges k s = some ({ s with edges := s.edges.drop k }, [], []) := by
  induction wait generalizing s with
  | nil =>
    intro k hk
    obtain rfl : k = 0 := by simpa using hk
    rfl
  | cons e wait ih =>
    intro k hk
    cases k with
    | zero => rfl
    | succ k =>
      have hnext : nextEdge s = e := nextEdge_cons hedges
      obtain ⟨hrst, hdone⟩ := hwait e (by simp)
      have hone := runEdges_busy hport (hnext ▸ hrst)
      rw [hnext, hdone, hedges] at hone
      have hrest := ih (s := { s with port := .busy r, edges := wait ++ rest }) rfl rfl
        (fun x hx => hwait x (by simp [hx])) k (by simpa using hk)
      have hrun := runEdges_append hone hrest
      rw [Nat.add_comm 1 k] at hrun
      simpa [hedges, ← hport] using hrun

/-- Settles O56: the accepting edge, the waiting ones, and the one that offers. -/
theorem responseIsOfferedAfterItsLatency : Obligations.ResponseIsOfferedAfterItsLatency := by
  intro s e d wait rest hport hedges hrst hvalid hwait hdrst hddone
  have hnext : nextEdge s = e := nextEdge_cons hedges
  have haccepted : acceptedWord s = some e.cmdData :=
    (acceptedWord_eq_some_iff s _).2 ⟨hnext ▸ hrst, hport, hnext ▸ hvalid, hnext ▸ rfl⟩
  obtain ⟨t, r, htransact, hone⟩ := runEdges_accepted haccepted
  rw [hedges, List.tail_cons] at hone
  have hheld : ∀ k ≤ wait.length, runEdges (k + 1) s =
      some ({ t with port := .busy r, edges := (wait ++ d :: rest).drop k }, [e.cmdData], []) := by
    intro k hk
    rw [Nat.add_comm]
    exact runEdges_append hone (runEdges_wait rfl rfl hwait k hk)
  refine ⟨t, r, htransact, hheld, ?_⟩
  have hlast := hheld wait.length le_rfl
  rw [List.drop_left] at hlast
  have hoffer := runEdges_busy
    (s := { t with port := .busy r, edges := d :: rest }) rfl hdrst
  exact (runEdges_append hlast hoffer).trans (by simp [nextEdge, hddone])

/-- A response owed is offered at the first edge with `done` set, at the latest beyond the listed
edges. -/
theorem runEdges_offers {s : State} {r : Word64} (hport : s.port = .busy r)
    (hrst : ∀ e ∈ s.edges, e.rst = false) :
    ∃ k, 1 ≤ k ∧
      runEdges k s = some ({ s with port := .offering r, edges := s.edges.drop k }, [], []) := by
  have hone := runEdges_busy hport (nextEdge_rst hrst)
  induction hedges : s.edges generalizing s with
  | nil =>
    rw [nextEdge_nil hedges, hedges] at hone
    exact ⟨1, le_rfl, hone⟩
  | cons e rest ih =>
    rw [nextEdge_cons hedges, hedges] at hone
    cases hdone : e.done with
    | true => exact ⟨1, le_rfl, by simpa [hdone] using hone⟩
    | false =>
      have hrst' : ∀ x ∈ rest, x.rst = false := fun x hx => hrst x (by simp [hedges, hx])
      obtain ⟨k, -, hrest⟩ := ih (s := { s with port := .busy r, edges := rest }) rfl hrst'
        (runEdges_busy rfl (nextEdge_rst hrst')) rfl
      rw [hdone] at hone
      exact ⟨1 + k, by omega, (runEdges_append hone hrest).trans (by simp [Nat.add_comm])⟩

/-- Settles O57: from the state after the accepting edge, the response owed is offered. -/
theorem everyAcceptedCommandIsAnswered : Obligations.EveryAcceptedCommandIsAnswered := by
  refine fun s hrst => ⟨fun r hport => runEdges_offers hport hrst, fun w haccepted => ?_⟩
  obtain ⟨t, r, htransact, hone⟩ := runEdges_accepted haccepted
  obtain ⟨k, hk, hrest⟩ := runEdges_offers (s := { t with port := .busy r, edges := s.edges.tail }) rfl
    fun e he => hrst e (List.mem_of_mem_tail he)
  refine ⟨t, r, 1 + k, htransact, by omega, (runEdges_append hone hrest).trans ?_⟩
  simp [Nat.add_comm]

/-! ## The response word (R320, R321) -/

/-- What the response to a word holds, by what the word decodes to: a status alone, or data that a read
gives, or, with status OK, whatever PROC gives. -/
inductive Answers : Except Illegal Instr → Response → Prop where
  | status (d : Except Illegal Instr) (st : Status) : Answers d { status := st }
  | cfgRd (idx : BitVec 16) (v : Word32) : Answers (.ok (.cfgRd idx)) { data := v }
  | rdState (sel : BitVec 4) (idx : BitVec 16) (v : Word32) :
    Answers (.ok (.rdState sel idx)) { data := v }
  | proc (n f : Int) (r : Response) (hok : r.status = .ok) : Answers (.ok (.proc n f)) r

theorem exec_answers (i : Instr) (s : State) : ∃ u r, exec i s = respond r u ∧ Answers (.ok i) r := by
  have answered : ∀ st u, ∃ u' r, respond { status := st } u = respond r u' ∧ Answers (.ok i) r :=
    fun st u => ⟨u, _, rfl, .status _ st⟩
  cases i with
  | nop => exact answered .ok s
  | cfgRd idx =>
    simp only [exec, execCfgRd]
    split
    · exact answered _ s
    · exact ⟨_, _, rfl, .cfgRd _ _⟩
  | cfgWr idx v =>
    simp only [exec, execCfgWr]
    split
    · exact answered _ s
    · split
      · exact answered _ s
      · split_ifs <;> exact answered _ _
  | start =>
    simp only [exec, execStart]
    split <;> exact answered _ _
  | stop =>
    simp only [exec, execStop]
    split <;> exact answered _ _
  | proc n f =>
    simp only [exec, execProc]
    split
    · exact answered _ s
    · exact ⟨_, _, rfl, .proc n f _ rfl⟩
  | procNoin =>
    simp only [exec, execProcNoin]
    split <;> exact answered _ _
  | rdState sel idx =>
    simp only [exec, execRdState]
    split
    · exact answered _ s
    · split
      · exact answered _ s
      · exact ⟨_, _, rfl, .rdState _ _ _⟩

theorem acceptWord_answers (w : Word64) (s : State) :
    ∃ u r, acceptWord w s = respond r u ∧ Answers (decode w) r := by
  unfold acceptWord
  cases decode w with
  | ok i => exact exec_answers i s
  | error _ => exact ⟨s, _, rfl, .status _ .illegal⟩

theorem transact_answers {w q : Word64} {s t : State} (h : transact w s = some (t, q)) :
    ∃ r, q = packResponse r ∧ Answers (decode w) r := by
  obtain ⟨u, r, haccept, hr⟩ := acceptWord_answers w s
  rw [transact_of_accept haccept] at h
  exact ⟨r, (congrArg Prod.snd (Option.some.inj h)).symm, hr⟩

/-- A status that is not OK comes alone. -/
theorem eq_status_of_answers {d : Except Illegal Instr} {r : Response} (h : Answers d r)
    (hst : r.status ≠ .ok) : r = { status := r.status } := by
  cases h with
  | status => rfl
  | cfgRd | rdState => exact absurd rfl hst
  | proc _ _ _ hok => exact absurd hok hst

/-- Settles O27: the fields of each kind of answer. -/
theorem responseFieldsAreZeroWhereUnused : Obligations.ResponseFieldsAreZeroWhereUnused := by
  intro w s t q h
  obtain ⟨r, rfl, hr⟩ := transact_answers h
  simp only [rspReserved_pack, rspStatus_pack, rspData_pack, rspAct_pack, rspOut_pack]
  refine ⟨rfl, statusCode_le _, fun hst => ?_, fun hproc => ?_, fun hproc hcfgRd hrdState => ?_⟩
  · have halone := eq_status_of_answers hr fun hok => hst ((statusCode_eq_zero _).2 hok)
    rw [halone]
    exact ⟨rfl, rfl, rfl, packResponse_status _⟩
  all_goals generalize decode w = d at *
  · cases hr with
    | proc n f => exact absurd rfl (hproc n f)
    | _ => exact ⟨rfl, rfl⟩
  · cases hr with
    | status => rfl
    | cfgRd idx => exact absurd rfl (hcfgRd idx)
    | rdState sel idx => exact absurd rfl (hrdState sel idx)
    | proc n f => exact absurd rfl (hproc n f)

/-! ## The assembler (R340, R342) -/

theorem ofNat_append_ofNat {j k a b : Nat} (hb : b < 2 ^ k) :
    BitVec.ofNat j a ++ BitVec.ofNat k b = BitVec.ofNat (j + k) (b + a * 2 ^ k) := by
  apply BitVec.eq_of_toNat_eq
  rw [append_toNat, BitVec.toNat_ofNat, BitVec.toNat_ofNat, BitVec.toNat_ofNat, Nat.mod_eq_of_lt hb,
    Nat.add_comm j k, Nat.pow_add, Nat.mod_mul, Nat.add_mul_mod_self_right, Nat.mod_eq_of_lt hb,
    Nat.add_mul_div_right _ _ (Nat.two_pow_pos k), Nat.div_eq_of_lt hb, Nat.zero_add, Nat.add_comm,
    Nat.mul_comm]

theorem fieldOf_map {α : Type} (k n : Nat) (f : BitVec k → α) :
    (fieldOf k n).map f = if n < 2 ^ k then some (f (BitVec.ofNat k n)) else none := by
  unfold fieldOf
  split <;> rfl

theorem fieldOf_bind {α : Type} (k n : Nat) (f : BitVec k → Option α) :
    (fieldOf k n).bind f = if n < 2 ^ k then f (BitVec.ofNat k n) else none := by
  unfold fieldOf
  split <;> rfl

theorem cfgWrLine_eq (reg : Nat) (value : Word32) : cfgWrLine reg value =
    if reg < 2 ^ 16 then some [.cfgWr (BitVec.ofNat 16 reg) value] else none := fieldOf_map _ _ _

theorem rdStateLine_eq (sel index : Nat) : rdStateLine sel index =
    if sel < 2 ^ 4 ∧ index < 2 ^ 16 then
      some [.rdState (BitVec.ofNat 4 sel) (BitVec.ofNat 16 index)] else none := by
  rw [rdStateLine, fieldOf_bind, ite_and, fieldOf_map]

/-- The word that SET_GATE writes: ADAPT above the threshold (10_state.md R115). -/
theorem gateWord_eq {thr : Nat} (h : thr < 2 ^ 16) (adapt : Bool) :
    (if adapt then (1 : BitVec 16) else 0) ++ BitVec.ofNat 16 thr =
      BitVec.ofNat 32 (thr + if adapt then 0x10000 else 0) := by
  cases adapt
  · exact ofNat_append_ofNat (a := 0) h
  · exact ofNat_append_ofNat (a := 1) h

/-- The word that SET_CHAN writes, one byte for each field (10_state.md R122). -/
theorem chanWord_eq {i o n : Nat} (hi : i < 2 ^ 8) (ho : o < 2 ^ 8) (hn : n < 2 ^ 8) (f : Nat) :
    BitVec.ofNat 8 f ++ (BitVec.ofNat 8 n ++ (BitVec.ofNat 8 o ++ BitVec.ofNat 8 i)) =
      BitVec.ofNat 32 (i + o * 2 ^ 8 + n * 2 ^ 16 + f * 2 ^ 24) := by
  rw [ofNat_append_ofNat hi, ofNat_append_ofNat (k := 8 + 8) (by omega),
    ofNat_append_ofNat (k := 8 + (8 + 8)) (by omega)]

section Lines

variable (env : AsmEnv)

theorem expandLine_cfgWr (reg value : Nat) : expandLine env (.cfgWr reg value) =
    if reg < 2 ^ 16 ∧ value < 2 ^ 32 then
      some [.cfgWr (BitVec.ofNat 16 reg) (BitVec.ofNat 32 value)] else none := by
  rw [expandLine, fieldOf_bind, cfgWrLine_eq, ← ite_and]
  exact if_congr and_comm rfl rfl

theorem expandLine_proc (noise fb : Int) : expandLine env (.proc noise fb) =
    if (-32768 ≤ noise ∧ noise ≤ 32767) ∧ -32768 ≤ fb ∧ fb ≤ 32767 then
      some [.proc noise fb] else none := by
  simp only [expandLine, Bool.and_eq_true, sampleInRange_iff]

theorem expandLine_setGate (thr : Nat) (adapt : Bool) : expandLine env (.setGate thr adapt) =
    if thr < 2 ^ 16 then
      some [.cfgWr 0x0004 (BitVec.ofNat 32 (thr + if adapt then 0x10000 else 0))] else none := by
  rw [expandLine, fieldOf_map]
  refine ite_congr rfl (fun hthr => ?_) fun _ => rfl
  rw [gateWord_eq hthr]
  rfl

theorem expandLine_setChan (i o n f : Nat) : expandLine env (.setChan i o n f) =
    if i < 2 ^ 8 ∧ o < 2 ^ 8 ∧ n < 2 ^ 8 ∧ f < 2 ^ 8 then
      some [.cfgWr 0x000B (BitVec.ofNat 32 (i + o * 2 ^ 8 + n * 2 ^ 16 + f * 2 ^ 24))]
      else none := by
  simp only [expandLine, fieldOf_bind, fieldOf_map, ← ite_and]
  refine ite_congr rfl (fun hin => ?_) fun _ => rfl
  obtain ⟨hi, ho, hn, -⟩ := hin
  rw [chanWord_eq hi ho hn]
  rfl

theorem expandLine_rdW (index : Nat) : expandLine env (.rdW index) =
    if index < 2 ^ 16 then some [.rdState 0 (BitVec.ofNat 16 index)] else none := by
  rw [expandLine, rdStateLine_eq]
  simp

theorem expandLine_rdD (index : Nat) : expandLine env (.rdD index) =
    if index < 2 ^ 16 then some [.rdState 1 (BitVec.ofNat 16 index)] else none := by
  rw [expandLine, rdStateLine_eq]
  simp

/-- FRAME with ABSENT: the same command for every frame (46_frame.md R904). -/
theorem expandLine_frame_absent (count : Nat) :
    expandLine env (.frame count true) = some (List.replicate count .procNoin) := by
  have hsame : frameInstrs env.chan count none = List.replicate (List.range count).length .procNoin :=
    List.map_const' ..
  rw [List.length_range] at hsame
  exact congrArg some hsame

end Lines

/-- Settles O54: a line per lemma. -/
theorem operandOutOfRangeIsAnError : Obligations.OperandOutOfRangeIsAnError :=
  fun env reg value sel index thr noise fb adapt _ _ _ i o n f =>
    ⟨rfl, rfl, rfl, rfl, fieldOf_map _ _ _, expandLine_cfgWr env reg value,
      expandLine_proc env noise fb, rdStateLine_eq sel index, cfgWrLine_eq _ _,
      expandLine_setGate env thr adapt, expandLine_rdW env index, expandLine_rdD env index,
      expandLine_setChan env i o n f⟩

/-- Settles O53: the lemmas of the lines, with every operand in its range. -/
theorem pseudoCommandsExpandAsGiven : Obligations.PseudoCommandsExpandAsGiven := by
  refine fun env => ⟨fun reg num den neg hreg => ?_, ?_, rfl, rfl, rfl, fun thr hthr => ?_,
    fun i o n f hi ho hn hf => ?_, fun i hi => ?_, expandLine_frame_absent env, fun count h => if_pos h⟩
  · have hline (x : RealLit) :
        expandLine env (.cfgWrf reg x) = some [.cfgWr (BitVec.ofNat 16 reg) (realBits x)] :=
      (cfgWrLine_eq reg _).trans (if_pos (by omega))
    refine ⟨hline _, fun hnum => (hline _).trans ?_⟩
    rw [realBits, if_neg (show num ≠ 0 from hnum.ne')]
  · have hmu : realBits ⟨false, 1, 1000⟩ = 0x3A83126F := by decide +kernel
    rw [expandLine, hmu]
    rfl
  · have hthr' : thr < 2 ^ 16 := by omega
    exact ⟨(expandLine_setGate env thr false).trans (if_pos hthr'),
      (expandLine_setGate env thr true).trans (if_pos hthr')⟩
  · exact (expandLine_setChan env i o n f).trans (if_pos (by omega))
  · have hi' : i < 2 ^ 16 := by omega
    exact ⟨(expandLine_rdW env i).trans (if_pos hi'), (expandLine_rdD env i).trans (if_pos hi')⟩

end Sys2Proof.Machine

namespace Sys2Proof.Machine

/-! # The control and configuration commands (spec 40_control.md)

Each command's answer is said once for each of its checks' outcomes; the claims read them off. -/

/-! ## NOP (R400) -/

/-- Settles O17: the empty response is the all-zero word. -/
theorem nopIsAnsweredOk : Obligations.NopIsAnsweredOk := ⟨rfl, fun _ => rfl⟩

/-! ## The words of CFG_RD and CFG_WR (R341) -/

/-- A word is its upper sixteen bits, its index and its value. -/
theorem wordOf_eq_append (f : Fields) :
    wordOf f = (f.op ++ (f.sel ++ f.rsv)) ++ (f.idx ++ (f.a ++ f.b)) := by
  apply BitVec.eq_of_toNat_eq
  simp only [wordOf, append_toNat]
  omega

theorem encode_cfgRd (idx : BitVec 16) : encode (.cfgRd idx) = 0x1000#16 ++ (idx ++ 0#32) := by
  simp [encode, wordOf_eq_append, fieldsOfInstr]

theorem encode_cfgWr (idx : BitVec 16) (v : Word32) :
    encode (.cfgWr idx v) = 0x2000#16 ++ (idx ++ v) := by
  simp [encode, wordOf_eq_append, fieldsOfInstr, halves_append]

/-! ## CFG_RD (R410) -/

theorem exec_cfgRd {s : State} {r : Reg} {v : Word32} (h : readReg s r = v) :
    exec (.cfgRd (regIndex r)) s = .next { s with port := .busy (v ++ 0#32) } :=
  h ▸ execCfgRd_of_regAt (regAt_regIndex r) s

theorem exec_cfgRd_unmapped {idx : BitVec 16} (h : 0x000D < idx.toNat) (s : State) :
    exec (.cfgRd idx) s = fail .badIndex s := by
  rw [exec, execCfgRd, (regAt_eq_none_iff idx).2 h]

theorem readReg_status_idle {s : State} (hs : s.mode = .idle) : readReg s .status = 0 := by
  rw [readReg, hs]
  rfl

theorem readReg_status_running {s : State} (hs : s.mode = .running) : readReg s .status = 1 := by
  rw [readReg, hs]
  rfl

/-- Settles O18: every register is answered by `exec_cfgRd`. -/
theorem cfgRdAnswersTheRegister : Obligations.CfgRdAnswersTheRegister := by
  refine ⟨encode_cfgRd, fun s => ?_⟩
  have read (r : Reg) := exec_cfgRd (s := s) (r := r) rfl
  have variant {x : Variant} (h : s.variant = x) : readReg s .variant = variantWord x :=
    congrArg variantWord h
  exact ⟨read .id, read .cap, fun h => exec_cfgRd (readReg_status_idle h),
    fun h => exec_cfgRd (readReg_status_running h),
    fun h => exec_cfgRd (variant h), fun h => exec_cfgRd (variant h), fun h => exec_cfgRd (variant h),
    read .gate, read .kp, read .ki, read .kd, read .mu, read .len, read .gain, read .chan,
    read .srate, read .frames, fun _ h => exec_cfgRd_unmapped h s⟩

/-! ## Legal values (R420; 10_state.md R114, R115, R120, R122) -/

theorem legalVariant_iff (v : Word32) : legalVariant v = true ↔ v.toNat < 3 := by
  simp only [legalVariant, Bool.and_eq_true, beq_iff_eq, bne_iff_ne, ne_eq, ← BitVec.toNat_inj,
    BitVec.extractLsb'_toNat, Nat.shiftRight_eq_div_pow, BitVec.ofNat_eq_ofNat, BitVec.toNat_ofNat]
  omega

theorem legalGate_iff (v : Word32) : legalGate v = true ↔ v.toNat < 2 ^ 17 := by
  simp only [legalGate, beq_iff_eq, ← BitVec.toNat_inj, BitVec.extractLsb'_toNat,
    Nat.shiftRight_eq_div_pow, BitVec.ofNat_eq_ofNat, BitVec.toNat_ofNat]
  omega

theorem legalLen_iff (n : Nat) (v : Word32) : legalLen n v = true ↔ 1 ≤ v.toNat ∧ v.toNat ≤ n := by
  simp [legalLen]

theorem chan_fields (inCh outCh noiseCh fbCh : BitVec 8) :
    let v := fbCh ++ (noiseCh ++ (outCh ++ inCh))
    chanIn v = inCh.toNat ∧ chanOut v = outCh.toNat ∧ chanNoise v = noiseCh.toNat ∧
      chanFb v = fbCh.toNat := by
  simp only [chanIn, chanOut, chanNoise, chanFb, BitVec.extractLsb'_toNat, append_toNat,
    Nat.shiftRight_eq_div_pow]
  omega

/-- The legality of `CHAN` in its four fields. -/
theorem legalChan_append_iff (inCh outCh noiseCh fbCh : BitVec 8) :
    legalChan (fbCh ++ (noiseCh ++ (outCh ++ inCh))) = true ↔
      1 ≤ inCh.toNat ∧ 1 ≤ outCh.toNat ∧ noiseCh.toNat < inCh.toNat ∧ fbCh.toNat < inCh.toNat := by
  obtain ⟨hin, hout, hnoise, hfb⟩ := chan_fields inCh outCh noiseCh fbCh
  simp [legalChan, hin, hout, hnoise, hfb, and_assoc]

/-- The registers that are never written are the first three. -/
theorem readOnlyReg_iff (r : Reg) : readOnlyReg r = true ↔ (regIndex r).toNat ≤ 0x0002 := by
  cases r <;> decide

/-- A read-only register has no legal value. -/
theorem readOnlyReg_of_legalValue {n : Nat} {r : Reg} {v : Word32} (h : legalValue n r v = true) :
    readOnlyReg r = false := by
  cases r with
  | id | cap | status => exact h.symm
  | _ => rfl

/-! ## CFG_WR (R420) -/

theorem exec_cfgWr_running {s : State} (hs : s.mode = .running) (idx : BitVec 16) (v : Word32) :
    exec (.cfgWr idx v) s = fail .cfgLocked s := by
  rw [exec, execCfgWr, hs]

section Idle

variable {s : State} (hs : s.mode = .idle) {r : Reg} {v : Word32}
include hs

theorem exec_cfgWr_unmapped {idx : BitVec 16} (h : 0x000D < idx.toNat) (v : Word32) :
    exec (.cfgWr idx v) s = fail .badIndex s := by
  rw [exec, execCfgWr, hs, (regAt_eq_none_iff idx).2 h]

/-- With no session open, a register's write is refused or takes place, by the register and the
value. -/
theorem exec_cfgWr_idle (r : Reg) (v : Word32) : exec (.cfgWr (regIndex r) v) s =
    if readOnlyReg r then fail .readOnly s
    else if legalValue s.nmax r v then respond {} (writeReg r v s)
    else fail .badValue s := by
  rw [exec, execCfgWr, hs, regAt_regIndex]

theorem exec_cfgWr_readOnly {idx : BitVec 16} (h : idx.toNat ≤ 0x0002) (v : Word32) :
    exec (.cfgWr idx v) s = fail .readOnly s := by
  cases hr : regAt idx with
  | none => have := (regAt_eq_none_iff idx).1 hr; omega
  | some r =>
    obtain rfl := (regAt_eq_some_iff idx r).1 hr
    rw [exec_cfgWr_idle hs, if_pos ((readOnlyReg_iff r).2 h)]

theorem exec_cfgWr_legal (h : legalValue s.nmax r v = true) :
    exec (.cfgWr (regIndex r) v) s = .next { writeReg r v s with port := .busy 0 } := by
  rw [exec_cfgWr_idle hs, readOnlyReg_of_legalValue h, if_neg Bool.false_ne_true, if_pos h]
  rfl

theorem exec_cfgWr_illegal (hr : readOnlyReg r = false) (h : ¬legalValue s.nmax r v = true) :
    exec (.cfgWr (regIndex r) v) s = fail .badValue s := by
  rw [exec_cfgWr_idle hs, hr, if_neg Bool.false_ne_true, if_neg h]

end Idle

/-- Settles O19: by the outcomes of the checks, each legality rule read as its range. -/
theorem cfgWrWritesOrRefuses : Obligations.CfgWrWritesOrRefuses := by
  refine ⟨encode_cfgWr, fun s v => ⟨fun hs idx => exec_cfgWr_running hs idx v, fun hs => ?_⟩⟩
  have writes {r : Reg} (h : legalValue s.nmax r v = true) := exec_cfgWr_legal hs h
  have refuses {r : Reg} (hr : readOnlyReg r = false) (h : ¬legalValue s.nmax r v = true) :=
    exec_cfgWr_illegal hs hr h
  refine ⟨fun _ h => exec_cfgWr_unmapped hs h v, fun _ h => exec_cfgWr_readOnly hs h v,
    ?pid, ?lms, ?direct, fun h => refuses (r := .variant) rfl ?variant,
    fun h => writes (r := .gate) ((legalGate_iff v).2 h),
    fun h => refuses (r := .gate) rfl ?gate,
    writes (r := .kp) rfl, writes (r := .ki) rfl, writes (r := .kd) rfl, writes (r := .mu) rfl,
    fun h => writes (r := .len) ((legalLen_iff _ v).2 h),
    fun h => refuses (r := .len) rfl ?len,
    writes (r := .gain) rfl, ?chan, writes (r := .srate) rfl, writes (r := .frames) rfl⟩
  case pid | lms | direct =>
    rintro rfl
    exact writes (r := .variant) rfl
  case variant => exact mt (legalVariant_iff v).1 (by omega)
  case gate => exact mt (legalGate_iff v).1 (by omega)
  case len => exact mt (legalLen_iff _ v).1 (by omega)
  case chan =>
    rintro inCh outCh noiseCh fbCh rfl
    have hiff := legalChan_append_iff inCh outCh noiseCh fbCh
    exact ⟨fun h => writes (r := .chan) (hiff.2 h), fun h => refuses (r := .chan) rfl (mt hiff.1 h)⟩

/-! ## START and STOP (R430, R440) -/

theorem exec_start_idle {s : State} (hs : s.mode = .idle) :
    exec .start s = respond {} { zeroFilterState s with mode := .running } := by
  rw [exec, execStart, hs]

theorem exec_start_running {s : State} (hs : s.mode = .running) :
    exec .start s = fail .alreadyRunning s := by
  rw [exec, execStart, hs]

theorem exec_stop_running {s : State} (hs : s.mode = .running) :
    exec .stop s = respond {} { s with mode := .idle } := by
  rw [exec, execStop, hs]

theorem exec_stop_idle {s : State} (hs : s.mode = .idle) : exec .stop s = fail .notRunning s := by
  rw [exec, execStop, hs]

theorem exec_rdState_idle {s : State} (hs : s.mode = .idle) (sel : BitVec 4) (idx : BitVec 16) :
    exec (.rdState sel idx) s = fail .notRunning s := by
  rw [exec, execRdState, hs]

/-- Settles O21: START's two outcomes. -/
theorem startOpensASession : Obligations.StartOpensASession :=
  ⟨rfl, fun _ => ⟨exec_start_idle, exec_start_running⟩⟩

/-- Settles O22: STOP's two outcomes; the state it leaves is IDLE, where RD_STATE is refused and START
zeroes the filter state. -/
theorem stopClosesTheSession : Obligations.StopClosesTheSession :=
  ⟨rfl, fun _ => ⟨fun hs => ⟨exec_stop_running hs, exec_rdState_idle rfl, exec_start_idle rfl⟩,
    exec_stop_idle⟩⟩

end Sys2Proof.Machine

namespace Sys2Proof.Machine

/-! # Sample processing (spec 41_sample.md)

PROC's two outcomes and PROC_NOIN's, then the gate (section 1), the output stage (section 2) and what
PROC answers. -/

/-! ## The outcomes of PROC and PROC_NOIN (R530, R540) -/

theorem exec_proc_running {s : State} (hs : s.mode = .running) (n f : Int) :
    exec (.proc n f) s = respond (procResponse n f s) (filterSample n f s).1 := by
  rw [exec, execProc, hs]

theorem exec_proc_idle {s : State} (hs : s.mode = .idle) (n f : Int) :
    exec (.proc n f) s = fail .notRunning s := by
  rw [exec, execProc, hs]

theorem exec_procNoin_running {s : State} (hs : s.mode = .running) :
    exec .procNoin s = respond {} s := by
  rw [exec, execProcNoin, hs]

theorem exec_procNoin_idle {s : State} (hs : s.mode = .idle) :
    exec .procNoin s = fail .notRunning s := by
  rw [exec, execProcNoin, hs]

/-- Settles O36: the empty response is the all-zero word, and NOT_RUNNING's word is its code alone. -/
theorem procNoinIsSilent : Obligations.ProcNoinIsSilent :=
  ⟨rfl, fun _ => ⟨exec_procNoin_running, exec_procNoin_idle⟩⟩

/-! ## The gate (R510, R513) -/

theorem gateOpen_iff (s : State) (n : Int) :
    gateOpen s n = true ↔ (s.gate.extractLsb' 0 16).toNat < n.natAbs :=
  decide_eq_true_iff

theorem gateOpen_eq_false_iff (s : State) (n : Int) :
    gateOpen s n = false ↔ n.natAbs ≤ (s.gate.extractLsb' 0 16).toNat :=
  decide_eq_false_iff_not.trans Nat.not_lt

/-- Settles O28: a session's PROC is answered with `procResponse`, whose ACT is the gate. -/
theorem gateOpensAboveTheThreshold : Obligations.GateOpensAboveTheThreshold := by
  intro s n f hs
  refine ⟨_, _, exec_proc_running hs n f, rfl, rspStatus_pack _, ?_⟩
  rw [rspAct_pack]
  exact gateOpen_iff s n

section Inactive

variable {s : State} {n : Int} (hgate : gateOpen s n = false)
include hgate

/-- On an inactive sample with `ADAPT = 0` the filter does not run (R513). -/
theorem filterSample_inactive (hadapt : gateAdapt s.gate = false) (f : Int) :
    filterSample n f s = (s, 0x00000000#32) := by
  rw [filterSample, variantRuns, hgate, hadapt]
  rfl

/-- On an inactive sample PROC answers the correction alone (R530, R531). -/
theorem exec_proc_inactive (hs : s.mode = .running) (f : Int) :
    exec (.proc n f) s = respond { data := (filterSample n f s).2 } (filterSample n f s).1 := by
  rw [exec_proc_running hs, procResponse, hgate]
  rfl

/-- With `ADAPT = 0` it then answers as PROC_NOIN does (R542). -/
theorem exec_proc_silent (hs : s.mode = .running) (hadapt : gateAdapt s.gate = false) (f : Int) :
    exec (.proc n f) s = respond {} s := by
  rw [exec_proc_inactive hgate hs, filterSample_inactive hgate hadapt]

end Inactive

/-- Settles O29: the sample is inactive; with `ADAPT = 0` the filter does not run either. -/
theorem silentSampleIsSilence : Obligations.SilentSampleIsSilence := by
  intro s n f hs hn
  have hgate := (gateOpen_eq_false_iff s n).2 hn
  exact ⟨fun hadapt => exec_proc_silent hgate hs hadapt f,
    fun _ => ⟨_, _, exec_proc_inactive hgate hs f, rfl, rspStatus_pack _, rspAct_pack _, rspOut_pack _⟩⟩

/-! ## The output stage (R520 to R524) -/

theorem limit_nan {c : F32} (h : f32IsNaN c = true) : limit c = 0 := if_pos h

theorem limit_of_not_nan {c : F32} (h : f32IsNaN c = false) :
    limit c = sat16 (-roundHA (clampedScaled c) (2 ^ 149)) := by
  rw [limit, h, if_neg Bool.false_ne_true]

theorem clampedScaled_inf {c : F32} (h : f32IsInf c = true) :
    clampedScaled c = (if f32Sign c then -32768 else 32767) * 2 ^ 149 := if_pos h

theorem clampedScaled_finite {c : F32} (h : f32IsFinite c = true) :
    clampedScaled c = clampR (f32Scaled c) (-32768 * 2 ^ 149) (32767 * 2 ^ 149) := by
  rw [clampedScaled, ((f32IsFinite_iff c).1 h).2, if_neg Bool.false_ne_true]

/-- From 32766.5 on the clamped correction rounds to 32767, a tie included. -/
theorem limit_of_clampedScaled_ge {c : F32} (hnan : f32IsNaN c = false)
    (h : 65533 * 2 ^ 149 ≤ 2 * clampedScaled c) : limit c = -32767 := by
  obtain ⟨-, hmax⟩ := clampedScaled_range c
  obtain ⟨hnear, htie, -⟩ := roundHA_spec (clampedScaled c)
  have hround : roundHA (clampedScaled c) (2 ^ 149) = 32767 := by omega
  rw [limit_of_not_nan hnan, hround]
  rfl

/-- Up to -32766.5 the clamped correction rounds to -32767 or -32768, and the negation of either saturates
to 32767. -/
theorem limit_of_clampedScaled_le {c : F32} (hnan : f32IsNaN c = false)
    (h : 2 * clampedScaled c ≤ -(65533 * 2 ^ 149)) : limit c = 32767 := by
  obtain ⟨hmin, -⟩ := clampedScaled_range c
  obtain ⟨hnear, htie, -⟩ := roundHA_spec (clampedScaled c)
  have hround : roundHA (clampedScaled c) (2 ^ 149) = -32767 ∨
      roundHA (clampedScaled c) (2 ^ 149) = -32768 := by omega
  rw [limit_of_not_nan hnan]
  rcases hround with hr | hr <;> rw [hr] <;> rfl

/-- Between the two nothing is clamped and nothing saturates. -/
theorem limit_eq_neg_roundHA {c : F32} (hfin : f32IsFinite c = true)
    (hlt : 2 * f32Scaled c < 65533 * 2 ^ 149) (hgt : -(65533 * 2 ^ 149) < 2 * f32Scaled c) :
    limit c = -roundHA (f32Scaled c) (2 ^ 149) := by
  obtain ⟨hnear, -⟩ := roundHA_spec (f32Scaled c)
  rw [limit_of_not_nan ((f32IsFinite_iff c).1 hfin).1, clampedScaled_finite hfin, clampR,
    if_neg (by omega), if_neg (by omega), sat16, if_neg (by omega), if_neg (by omega)]

theorem limit_inf {c : F32} (h : f32IsInf c = true) :
    limit c = if f32Sign c then 32767 else -32767 := by
  have hclamp := clampedScaled_inf h
  cases hsign : f32Sign c with
  | true =>
    rw [hsign, if_pos rfl] at hclamp
    exact limit_of_clampedScaled_le (f32IsNaN_of_isInf h) (by omega)
  | false =>
    rw [hsign, if_neg Bool.false_ne_true] at hclamp
    exact limit_of_clampedScaled_ge (f32IsNaN_of_isInf h) (by omega)

/-- Settles O34: by the value's class and, for a finite one, its place among the limiter's rails; between
them `roundHA_spec` says which integer the rounding gives. -/
theorem limiterNegatesTheRoundedCorrection : Obligations.LimiterNegatesTheRoundedCorrection := by
  intro c
  refine ⟨limit_nan, limit_inf, fun hfin => ?_⟩
  have hnan := ((f32IsFinite_iff c).1 hfin).1
  have hclamp := clampedScaled_finite hfin
  unfold clampR at hclamp
  refine ⟨fun hge => limit_of_clampedScaled_ge hnan ?_,
    fun hle => limit_of_clampedScaled_le hnan ?_, fun hlt hgt => ?_⟩
  · rw [hclamp]
    split_ifs <;> omega
  · rw [hclamp]
    split_ifs <;> omega
  · rw [limit_eq_neg_roundHA hfin hlt hgt]
    have hspec := roundHA_spec (f32Scaled c)
    omega

/-! ## The range of OUT (R533) -/

/-- OUT, read as two's complement, is the output Sample: no bit of it is lost. -/
theorem toInt_procResponse_out (n f : Int) (s : State) :
    (procResponse n f s).out.toInt = outputSample (gateOpen s n) (filterSample n f s).2 := by
  have hrange := outputSample_range (gateOpen s n) (filterSample n f s).2
  exact sext16_bits16 ((sampleInRange_iff _).2 (by omega))

/-- Settles O35: a refused PROC has OUT 0, and an answered one the output Sample. -/
theorem outputSampleStaysInRange : Obligations.OutputSampleStaysInRange := by
  intro s t n f r hexec hport
  cases hs : s.mode with
  | idle =>
    rw [exec_proc_idle hs, fail_eq, Host.Outcome.next.injEq] at hexec
    subst hexec
    obtain rfl := Port.busy.inj hport
    rw [rspOut_pack]
    decide
  | running =>
    rw [exec_proc_running hs, respond_eq, Host.Outcome.next.injEq] at hexec
    subst hexec
    obtain rfl := Port.busy.inj hport
    rw [rspOut_pack, toInt_procResponse_out]
    exact outputSample_range _ _

end Sys2Proof.Machine

namespace Sys2Proof.Machine

/-! # The PID variant (spec 42_pid.md)

The error is exact; then what PROC does on a sample that the variant runs on, for any variant, and the
PID session as one use of it. -/

/-! ## The error (R601, R604) -/

/-- Equal operands give +0.0, never -0.0 (R601). -/
theorem f32Sub_i2f_self {m : Int} (hm : m.natAbs ≤ 65535) : f32Sub (i2f m) (i2f m) = 0x00000000 := by
  rw [f32Sub_i2f hm hm, Int.sub_self]
  rfl

/-- Settles O41: the difference has at most 17 significant bits, so `i2f_spec` applies to it. -/
theorem integerDifferencesAreExact : Obligations.IntegerDifferencesAreExact := by
  intro m n hm hn
  obtain ⟨hfin, hval, hneg⟩ := i2f_spec (i := m - n) (by omega)
  refine ⟨f32Sub_i2f hm hn, hfin, hval, hneg, ?_⟩
  rintro rfl
  exact f32Sub_i2f_self hm

/-! ## PROC on a sample that the variant runs on (R513, R530) -/

theorem variantRuns_iff (s : State) (n : Int) :
    variantRuns s n = true ↔
      (s.gate.extractLsb' 0 16).toNat < n.natAbs ∨ s.gate.getLsbD 16 = true := by
  rw [variantRuns, Bool.or_eq_true, gateOpen_iff, gateAdapt]

theorem filterSample_of_runs {s : State} {n : Int} (hruns : variantRuns s n = true) (f : Int) :
    filterSample n f s = variantStep n f s := if_pos hruns

theorem variantStep_pid {s : State} (hv : s.variant = .pid) (n f : Int) :
    variantStep n f s = pidStep n f s := by
  rw [variantStep, hv]

/-- PROC takes the variant's step and answers its correction, limited on an active sample. -/
theorem exec_proc_of_runs {s t : State} {n f : Int} {c : F32} (hs : s.mode = .running)
    (hruns : variantRuns s n = true) (hstep : variantStep n f s = (t, c)) :
    exec (.proc n f) s =
      respond { data := c, act := gateOpen s n, out := bits16 (outputSample (gateOpen s n) c) } t := by
  rw [exec_proc_running hs, procResponse, filterSample_of_runs hruns, hstep]

/-- Settles O30: a PID session's step is `pidStep`, whose operations are R610's in its order. -/
theorem procRunsThePidStep : Obligations.ProcRunsThePidStep := by
  intro s n f hs hv hruns
  exact exec_proc_of_runs hs ((variantRuns_iff s n).2 hruns) (variantStep_pid hv n f)

end Sys2Proof.Machine

namespace Sys2Proof.Machine

/-! # The LMS variant (spec 43_lms.md)

The elements after a step, by index; then what PROC does in an LMS session. -/

/-! ## The elements by index (R700, R701, R704) -/

theorem getElem?_eq_of_drop_eq {xs ys : List F32} {n i : Nat} (h : xs.drop n = ys.drop n)
    (hi : n ≤ i) : xs[i]? = ys[i]? := by
  obtain ⟨k, rfl⟩ := Nat.exists_eq_add_of_le hi
  rw [← List.getElem?_drop, h, List.getElem?_drop]

theorem getElem?_eq_some_getD {xs : List F32} {i : Nat} (hi : i < xs.length) :
    xs[i]? = some (xs.getD i 0) := by
  rw [List.getD_eq_getElem _ _ hi, List.getElem?_eq_getElem hi]

/-- The element at `i` is the old element before it (R701). -/
theorem shiftIn_getElem?_pos {n i : Nat} (x : F32) {ys : List F32} (hy : n ≤ ys.length)
    (h0 : 0 < i) (hi : i < n) : (shiftIn n x ys)[i]? = ys[i - 1]? := by
  obtain ⟨i, rfl⟩ := Nat.exists_eq_succ_of_ne_zero h0.ne'
  exact shiftIn_succ n x ys i hi (by omega)

/-- An updated tap, by the values that its index has (R704). -/
theorem updateTaps_getElem?_getD {n i : Nat} (g : F32) {ws ds : List F32} (hw : n ≤ ws.length)
    (hd : n ≤ ds.length) (hi : i < n) :
    (updateTaps n g ws ds)[i]? = some (f32Add (ws.getD i 0) (f32Mul g (ds.getD i 0))) :=
  updateTaps_getElem? n g ws ds i hi (getElem?_eq_some_getD (by omega))
    (getElem?_eq_some_getD (by omega))

/-! ## PROC in an LMS session (R710) -/

theorem variantStep_lms {s : State} (hv : s.variant = .lms) (n f : Int) :
    variantStep n f s = lmsStep n f s := by
  rw [variantStep, hv]

theorem lmsStep_d_length (n f : Int) (s : State) : (lmsStep n f s).1.d.length = s.d.length := by
  rw [lmsStep_d, shiftIn_length]

/-- The correction is the sum in index order over the shifted line and the old taps (R702). -/
theorem lmsStep_acc_eq_foldl {s : State} (hw : tapCount s ≤ s.w.length)
    (hd : tapCount s ≤ s.d.length) (n f : Int) :
    (lmsStep n f s).2 = (List.range (tapCount s)).foldl
      (fun a i => f32Add a (f32Mul (s.w.getD i 0) ((lmsStep n f s).1.d.getD i 0))) 0x00000000 := by
  rw [lmsStep_acc]
  exact dotFrom_eq_foldl _ _ _ _ hw (by rwa [lmsStep_d_length])

/-- Settles O31: an LMS session's step is `lmsStep`; its correction is the ordered sum, and what `shiftIn`
and `updateTaps` leave at each index gives the two arrays. -/
theorem procRunsTheLmsStep : Obligations.ProcRunsTheLmsStep := by
  intro s noise fb hs hv hruns hw hd n act
  have hline : n ≤ (lmsStep noise fb s).1.d.length := by rwa [lmsStep_d_length]
  have hacc := lmsStep_acc_eq_foldl hw hd noise fb
  refine ⟨_, exec_proc_of_runs hs ((variantRuns_iff s noise).2 hruns) (variantStep_lms hv noise fb),
    ?state, ?lengthW, ?lengthD, ?front, ?shifted, ?taps, ?tail⟩
  case state => exact hacc ▸ rfl
  case lengthW => exact updateTaps_length _ _ _ _
  case lengthD => exact lmsStep_d_length noise fb s
  case front => exact fun hn => shiftIn_zero _ hn (by omega)
  case shifted => exact fun i h0 hi => shiftIn_getElem?_pos _ hd h0 hi
  case taps => exact fun i hi => hacc ▸ updateTaps_getElem?_getD _ hw hline hi
  case tail =>
    exact fun i hi => ⟨getElem?_eq_of_drop_eq (drop_updateTaps _ _ _ _) hi,
      getElem?_eq_of_drop_eq (drop_shiftIn _ _ _) hi⟩

end Sys2Proof.Machine

namespace Sys2Proof.Machine

/-! # The DIRECT variant (spec 44_direct.md) -/

/-- The step keeps the state, for the variant has none (R800). -/
theorem variantStep_direct {s : State} (hv : s.variant = .direct) (n f : Int) :
    variantStep n f s = (s, directStep n f s) := by
  rw [variantStep, hv]

/-- Settles O32: a DIRECT session's step is `directStep`, beside the state as it was. -/
theorem procRunsTheDirectStep : Obligations.ProcRunsTheDirectStep := by
  intro s n f hs hv hruns
  exact exec_proc_of_runs hs ((variantRuns_iff s n).2 hruns) (variantStep_direct hv n f)

end Sys2Proof.Machine

namespace Sys2Proof.Machine

/-! # State readback (spec 45_readback.md)

The element that each selector names, then RD_STATE's outcomes in an open session. -/

/-- A word of RD_STATE is its opcode, SEL, the zero field, IDX and two zero operands (R330). -/
theorem encode_rdState (sel : BitVec 4) (idx : BitVec 16) :
    encode (.rdState sel idx) = 0x7#4 ++ (sel ++ (0#8 ++ (idx ++ 0#32))) := by
  apply BitVec.eq_of_toNat_eq
  simp only [encode, fieldsOfInstr, wordOf, append_toNat, BitVec.ofNat_eq_ofNat,
    BitVec.toNat_ofNat]
  omega

section Readback

variable (s : State) {sel : BitVec 4} {idx : BitVec 16} {v : F32}

/-! ## The named element (R202) -/

theorem stateElement_w (idx : BitVec 16) : stateElement s 0 idx =
    if idx.toNat < s.len.toNat then some (s.w.getD idx.toNat 0) else none := rfl

theorem stateElement_d (idx : BitVec 16) : stateElement s 1 idx =
    if idx.toNat < s.len.toNat then some (s.d.getD idx.toNat 0) else none := rfl

theorem stateElement_integral (idx : BitVec 16) : stateElement s 2 idx =
    if idx = 0 then some s.integral else none := rfl

theorem stateElement_prevErr (idx : BitVec 16) : stateElement s 3 idx =
    if idx = 0 then some s.prevErr else none := rfl

/-- Selectors 4 to 15 are BAD_INDEX at every index (R850). -/
theorem stateElement_reserved (hsel : 4 ≤ sel.toNat) (idx : BitVec 16) :
    stateElement s sel idx = none := by
  rw [stateElement, if_neg (by bv_omega), if_neg (by bv_omega), if_neg (by bv_omega),
    if_neg (by bv_omega)]

/-- What the two array equations give below LEN, for the model reads an array by `getD`. -/
theorem elementBelow_of_getElem? {xs : List F32} {i n : Nat} (hlt : i < n) (hv : xs[i]? = some v) :
    (if i < n then some (xs.getD i 0) else none) = some v := by
  rw [if_pos hlt, List.getD_eq_getElem?_getD, hv, Option.getD_some]

/-- The pairs that name no element: an index at or above LEN into an array, a nonzero one beside a
scalar, and every index under a reserved selector. -/
theorem stateElement_unmapped (h : (sel.toNat ≤ 1 ∧ s.len.toNat ≤ idx.toNat) ∨
    ((sel = 2 ∨ sel = 3) ∧ idx ≠ 0) ∨ 4 ≤ sel.toNat) : stateElement s sel idx = none := by
  rcases h with ⟨hsel, hidx⟩ | ⟨rfl | rfl, hidx⟩ | hsel
  · have harray : sel = 0 ∨ sel = 1 := by bv_omega
    rcases harray with rfl | rfl
    · exact (stateElement_w s idx).trans (if_neg hidx.not_gt)
    · exact (stateElement_d s idx).trans (if_neg hidx.not_gt)
  · exact (stateElement_integral s idx).trans (if_neg hidx)
  · exact (stateElement_prevErr s idx).trans (if_neg hidx)
  · exact stateElement_reserved s hsel idx

/-! ## RD_STATE (R850) -/

variable {s} (hs : s.mode = .running)
include hs

theorem exec_rdState_mapped (h : stateElement s sel idx = some v) :
    exec (.rdState sel idx) s = .next { s with port := .busy (v ++ 0#32) } := by
  have hrespond : exec (.rdState sel idx) s = respond { data := v } s := by
    rw [exec, execRdState, hs, h]
  rw [hrespond, respond_eq, packResponse_data]

theorem exec_rdState_unmapped (h : stateElement s sel idx = none) :
    exec (.rdState sel idx) s = fail .badIndex s := by
  rw [exec, execRdState, hs, h]

end Readback

/-- Settles O37: in a session the outcome is that of `stateElement`, whose value each clause gives. -/
theorem rdStateAnswersTheElement : Obligations.RdStateAnswersTheElement := by
  refine ⟨encode_rdState, fun s sel idx => ⟨fun hs => exec_rdState_idle hs sel idx, fun hs => ?_⟩⟩
  exact ⟨fun _ hlt hw => exec_rdState_mapped hs ((stateElement_w s idx).trans (elementBelow_of_getElem? hlt hw)),
    fun _ hlt hd => exec_rdState_mapped hs ((stateElement_d s idx).trans (elementBelow_of_getElem? hlt hd)),
    exec_rdState_mapped hs (stateElement_integral s 0),
    exec_rdState_mapped hs (stateElement_prevErr s 0),
    fun h => exec_rdState_unmapped hs (stateElement_unmapped s h)⟩

end Sys2Proof.Machine

namespace Sys2Proof.Machine

/-! # The frame processor (spec 46_frame.md)

A call's loop is a command sequence of `transactAll` with each response read as a Sample; a call whose
every frame is the same silent command needs one lemma about that command. -/

/-! ## The words of a frame (R341; 46_frame.md R902) -/

theorem encode_proc (n f : Int) :
    encode (.proc n f) = (0x50000000 : Word32) ++ (BitVec.ofInt 16 n ++ BitVec.ofInt 16 f) := by
  apply BitVec.eq_of_toNat_eq
  simp only [encode, fieldsOfInstr, bits16, wordOf, append_toNat, BitVec.ofNat_eq_ofNat,
    BitVec.toNat_ofNat]
  omega

theorem map_encode_frameInstrs (chan : Word32) (count : Nat) (input : Option (List Int)) :
    (frameInstrs chan count input).map encode =
      (List.range count).map fun i => encode (frameInstr chan input i) := List.map_map ..

/-! ## The command sequence of a call (R901) -/

/-- Every command sequence is carried out, with one response for each word (30_encoding.md R305). -/
theorem transactAll_answers (ws : List Word64) (s : State) :
    ∃ t rs, transactAll ws s = some (t, rs) ∧ rs.length = ws.length := by
  induction ws generalizing s with
  | nil => exact ⟨s, [], rfl, rfl⟩
  | cons w ws ih =>
    obtain ⟨t, r, hw, -⟩ := everyCommandWordIsAnswered w s
    obtain ⟨u, rs, hws, hlen⟩ := ih t
    exact ⟨u, r :: rs, transactAll_cons hw hws, congrArg (· + 1) hlen⟩

theorem issueAll_cons {i : Instr} {is : List Instr} {s t u : State} {r : Word64} {os : List Int}
    (hi : transact (encode i) s = some (t, r)) (his : issueAll is t = some (u, os)) :
    issueAll (i :: is) s = some (u, frameSample r :: os) := by
  simp only [issueAll, hi, his]

/-- Issuing commands is running their words, each response read as its frame's Sample. -/
theorem issueAll_eq (is : List Instr) (s : State) :
    issueAll is s = (transactAll (is.map encode) s).map fun p => (p.1, p.2.map frameSample) := by
  induction is generalizing s with
  | nil => rfl
  | cons i is ih =>
    obtain ⟨t, r, hi, -⟩ := everyCommandWordIsAnswered (encode i) s
    obtain ⟨u, rs, his, -⟩ := transactAll_answers (is.map encode) t
    have hrest : issueAll is t = some (u, rs.map frameSample) := by rw [ih, his, Option.map_some]
    rw [issueAll_cons hi hrest, List.map_cons, transactAll_cons hi his]
    rfl

theorem processFrame_of_issueAll {count : Nat} {input : Option (List Int)} {s t : State}
    {os : List Int} (hok : inputOk s.chan count input = true)
    (h : issueAll (frameInstrs s.chan count input) s = some (t, os)) :
    processFrame count input s = some ⟨t, broadcast (chanOut s.chan) os, .cont⟩ := by
  rw [processFrame, if_pos hok, h]

/-- A call whose buffer fits runs its frames' words and spreads each response's Sample. -/
theorem processFrame_answers {count : Nat} {input : Option (List Int)} {s : State}
    (hok : inputOk s.chan count input = true) :
    ∃ t rs, transactAll ((frameInstrs s.chan count input).map encode) s = some (t, rs) ∧
      rs.length = count ∧
      processFrame count input s =
        some ⟨t, broadcast (chanOut s.chan) (rs.map frameSample), .cont⟩ := by
  obtain ⟨t, rs, hall, hlen⟩ := transactAll_answers ((frameInstrs s.chan count input).map encode) s
  refine ⟨t, rs, hall, ?_, processFrame_of_issueAll hok ?_⟩
  · rw [hlen, map_encode_frameInstrs, List.length_map, List.length_range]
  · rw [issueAll_eq, hall, Option.map_some]

/-- Settles O49: the words of the call are those of `frameInstr`, for either input. -/
theorem processCallIsItsCommandSequence : Obligations.ProcessCallIsItsCommandSequence := by
  intro count input s hok
  obtain ⟨t, rs, hall, hlen, hcall⟩ := processFrame_answers hok
  rw [map_encode_frameInstrs] at hall
  rw [broadcast, List.flatMap_map] at hcall
  refine ⟨t, rs, ?_, hlen, hcall⟩
  cases input with
  | none => simpa only [frameInstr, procNoinIsSilent.1] using hall
  | some buf =>
    simpa only [frameInstr, encode_proc, interleaved, chanIn, chanNoise, chanFb] using hall

/-! ## The output buffer (R903, R905) -/

theorem broadcast_cons (channels : Nat) (o : Int) (os : List Int) :
    broadcast channels (o :: os) = List.replicate channels o ++ broadcast channels os :=
  List.flatMap_cons

theorem length_broadcast (channels : Nat) (samples : List Int) :
    (broadcast channels samples).length = samples.length * channels := by
  induction samples with
  | nil => exact (Nat.zero_mul channels).symm
  | cons o os ih =>
    rw [broadcast_cons, List.length_append, List.length_replicate, ih, List.length_cons,
      Nat.succ_mul, Nat.add_comm]

/-- Past the first frame's channels come those of the frames after it. -/
theorem getElem?_broadcast {channels i c : Nat} (hc : c < channels) (samples : List Int) :
    (broadcast channels samples)[i * channels + c]? = samples[i]? := by
  induction samples generalizing i with
  | nil => rfl
  | cons o os ih =>
    rw [broadcast_cons]
    cases i with
    | zero =>
      rw [Nat.zero_mul, Nat.zero_add, List.getElem?_append_left (by rwa [List.length_replicate]),
        List.getElem?_replicate_of_lt hc, List.getElem?_cons_zero]
    | succ i =>
      have hpos : (i + 1) * channels + c = channels + (i * channels + c) := by
        rw [Nat.succ_mul]; omega
      rw [hpos, List.getElem?_append_right (by rw [List.length_replicate]; omega),
        List.length_replicate, Nat.add_sub_cancel_left, ih, List.getElem?_cons_succ]

/-- Settles O50: the call's output is its responses' Samples under `broadcast`. -/
theorem everyOutputChannelGetsTheFramesSample : Obligations.EveryOutputChannelGetsTheFramesSample := by
  refine ⟨fun outCh samples =>
    ⟨length_broadcast outCh samples, fun i c _ hc => getElem?_broadcast hc samples⟩, ?_⟩
  intro count input s hok
  obtain ⟨t, rs, hall, hlen, hcall⟩ := processFrame_answers hok
  refine ⟨t, rs, _, hall, hcall, hlen, ?_, fun i c _ hc => ?_⟩
  · rw [length_broadcast, List.length_map, hlen]
    rfl
  · rw [chanOut, getElem?_broadcast hc, List.getElem?_map]
    rfl

/-! ## Silent calls (R904, R908) -/

theorem broadcast_replicate (channels n : Nat) (o : Int) :
    broadcast channels (List.replicate n o) = List.replicate (n * channels) o := by
  rw [broadcast, List.flatMap_replicate, List.flatten_replicate_replicate]

theorem frameInstrs_eq_replicate {chan : Word32} {input : Option (List Int)} {c : Instr}
    (h : ∀ i, frameInstr chan input i = c) (count : Nat) :
    frameInstrs chan count input = List.replicate count c := by
  rw [frameInstrs, funext h, List.map_const', List.length_range]

/-- A well-formed command's word is answered with what the command answers. -/
theorem transact_encode {i : Instr} (hi : i.wellFormed = true) {s t : State} {r : Response}
    (h : exec i s = respond r t) :
    transact (encode i) s = some ({ t with port := .ready }, packResponse r) := by
  refine transact_of_accept ?_
  rw [acceptWord, encodedCommandDecodesToItself i hi]
  exact h

/-- A response with `OUT = 0` gives silence, whatever its status. -/
theorem frameSample_pack_of_out_zero {r : Response} (h : r.out = 0) :
    frameSample (packResponse r) = 0 := by
  rw [frameSample, rspOut_pack, h]
  exact ite_self _

/-- The command gives its frame silence in every state with `P`, and `P` still holds after it. -/
def SilentOn (P : State → Prop) (i : Instr) : Prop :=
  ∀ s, P s → ∃ t r, transact (encode i) s = some (t, r) ∧ frameSample r = 0 ∧ P t

theorem issueAll_replicate_of_silentOn {P : State → Prop} {c : Instr} (hc : SilentOn P c) (n : Nat)
    {s : State} (hs : P s) :
    ∃ t, issueAll (List.replicate n c) s = some (t, List.replicate n 0) ∧ P t := by
  induction n generalizing s with
  | zero => exact ⟨s, rfl, hs⟩
  | succ n ih =>
    obtain ⟨t, r, hstep, hzero, ht⟩ := hc s hs
    obtain ⟨u, hrest, hu⟩ := ih ht
    refine ⟨u, ?_, hu⟩
    rw [List.replicate_succ, issueAll_cons hstep hrest, hzero]
    rfl

/-- A call whose every frame is one silent command writes zeros only. -/
theorem processFrame_of_silentOn {P : State → Prop} {c : Instr} (hc : SilentOn P c) {count : Nat}
    {input : Option (List Int)} {s : State} (hok : inputOk s.chan count input = true)
    (hframe : ∀ i, frameInstr s.chan input i = c) (hs : P s) :
    ∃ t, processFrame count input s =
      some ⟨t, List.replicate (count * chanOut s.chan) 0, .cont⟩ ∧ P t := by
  obtain ⟨t, hall, ht⟩ := issueAll_replicate_of_silentOn hc count hs
  rw [← frameInstrs_eq_replicate hframe] at hall
  refine ⟨t, ?_, ht⟩
  rw [processFrame_of_issueAll hok hall, broadcast_replicate]

theorem port_ready_eq {s : State} (h : s.port = .ready) : { s with port := .ready } = s := by
  rw [← h]

/-- PROC_NOIN leaves the state in either mode (R540). -/
theorem silentOn_procNoin {s : State} (hport : s.port = .ready) : SilentOn (· = s) .procNoin := by
  rintro s' rfl
  cases hs : s'.mode with
  | idle => exact ⟨_, _, transact_encode rfl (exec_procNoin_idle hs),
      frameSample_pack_of_out_zero rfl, port_ready_eq hport⟩
  | running => exact ⟨_, _, transact_encode rfl (exec_procNoin_running hs),
      frameSample_pack_of_out_zero rfl, port_ready_eq hport⟩

/-- Settles O51: every frame is PROC_NOIN. -/
theorem absentInputGivesSilence : Obligations.AbsentInputGivesSilence := by
  intro count s hport
  obtain ⟨t, hcall, rfl⟩ := processFrame_of_silentOn (silentOn_procNoin hport) (count := count)
    (input := none) rfl (fun _ => rfl) rfl
  exact ⟨frameInstrs_eq_replicate (fun _ => rfl) count, hcall⟩

/-- No threshold is below a zero sample (R512). -/
theorem gateOpen_zero (s : State) : gateOpen s 0 = false :=
  (gateOpen_eq_false_iff s 0).2 (Nat.zero_le _)

/-- PROC of a zero noise sample answers `OUT = 0` in either mode and, with `ADAPT = 0`, leaves the state
(R512, R513). -/
theorem exec_proc_zero (f : Int) (s : State) :
    ∃ r t, exec (.proc 0 f) s = respond r t ∧ r.out = 0 ∧ (gateAdapt s.gate = false → t = s) := by
  cases hs : s.mode with
  | idle => exact ⟨_, s, exec_proc_idle hs 0 f, rfl, fun _ => rfl⟩
  | running =>
    refine ⟨_, _, exec_proc_inactive (gateOpen_zero s) hs f, rfl, fun hadapt => ?_⟩
    rw [filterSample_inactive (gateOpen_zero s) hadapt]

/-- A zero frame is silent in every state; with `ADAPT = 0` the state never moves from where the call
found it. -/
theorem silentOn_proc_zero {s : State} (hport : s.port = .ready) :
    SilentOn (fun u => gateAdapt s.gate = false → u = s) (.proc 0 0) := by
  intro u hu
  obtain ⟨r, t, hexec, hout, hsame⟩ := exec_proc_zero 0 u
  refine ⟨_, _, transact_encode rfl hexec, frameSample_pack_of_out_zero hout, fun hadapt => ?_⟩
  obtain rfl := hu hadapt
  rw [hsame hadapt, port_ready_eq hport]

theorem inputOk_zeros (chan : Word32) (count : Nat) :
    inputOk chan count (some (List.replicate (count * chanIn chan) 0)) = true := by
  simp [inputOk, sampleInRange]

theorem frameInstr_zeros (chan : Word32) (n i : Nat) :
    frameInstr chan (some (List.replicate n 0)) i = .proc 0 0 := by
  simp only [frameInstr, interleaved, List.getD_eq_getElem?_getD,
    List.getElem?_getD_replicate_default_eq]

/-- Settles O52: every frame is PROC of two zeros. -/
theorem zeroSamplesGiveZeros : Obligations.ZeroSamplesGiveZeros :=
  fun count s hport => processFrame_of_silentOn (silentOn_proc_zero hport) (inputOk_zeros s.chan count)
    (frameInstr_zeros s.chan _) fun _ => rfl

end Sys2Proof.Machine

namespace Sys2Proof.Machine

/-! # Exceptions and reset (spec 60_exceptions.md, 70_reset_and_hazards.md)

The edges that no other part names (a reset, and a ready core offered nothing), then what a word that
fails is answered and which check it fails first. -/

/-! ## Reset (R1100) -/

theorem step_reset {s : State} (h : (nextEdge s).rst = true) : step s = .next (resetCore (atEdge s)) :=
  if_pos h

theorem acceptedWord_eq_none_of_rst {s : State} (h : (nextEdge s).rst = true) :
    acceptedWord s = none := by
  simp [acceptedWord, h]

/-- Settles O14: `resetCore` leaves the reset values. -/
theorem resetEdgeLeavesTheResetState : Obligations.ResetEdgeLeavesTheResetState := by
  intro s e rest hedges hrst
  rw [← nextEdge_cons hedges] at hrst
  refine ⟨acceptedWord_eq_none_of_rst hrst, ?_⟩
  rw [step_reset hrst, atEdge_cons hedges]
  rfl

/-! ## Every edge (R1000, R1004) -/

/-- An edge without reset, with the core ready and nothing offered (R304). -/
theorem step_quiet {s : State} (hport : s.port = .ready) (hrst : (nextEdge s).rst = false)
    (hvalid : (nextEdge s).cmdValid = false) : step s = .next (atEdge s) := by
  rw [step, edgeStep, hrst, if_neg Bool.false_ne_true, clockEdge, atEdge_port, hport, hvalid]
  rfl

/-- Settles O16: a reset, else an edge in each phase of the handshake; a word accepted in the ready phase
is always answered. -/
theorem everyEdgeHasANextState : Obligations.EveryEdgeHasANextState := by
  intro s
  cases hrst : (nextEdge s).rst with
  | true => exact ⟨_, step_reset hrst⟩
  | false =>
    cases hport : s.port with
    | busy r => exact ⟨_, step_busy hport hrst⟩
    | offering r => exact ⟨_, step_offering hport hrst⟩
    | ready =>
      cases hvalid : (nextEdge s).cmdValid with
      | false => exact ⟨_, step_quiet hport hrst hvalid⟩
      | true =>
        have haccepted := (acceptedWord_eq_some_iff s _).2 ⟨hrst, hport, hvalid, rfl⟩
        obtain ⟨t, r, -, hstep⟩ := step_accepted haccepted
        exact ⟨_, hstep⟩

/-! ## A word that fails (R1002) -/

/-- Settles O25: a word is answered OK or fails, and a failure's answer is its status alone. -/
theorem failedCommandChangesNothing : Obligations.FailedCommandChangesNothing := by
  intro w s t q haccept hport hstatus
  rcases acceptWord_cases w s with ⟨u, r, hok, hanswer, -⟩ | ⟨st, -, hfail⟩
  · obtain rfl := Host.Outcome.next.inj (haccept.symm.trans hanswer)
    obtain rfl := Port.busy.inj hport
    rw [rspStatus_pack] at hstatus
    exact absurd ((statusCode_eq_zero _).2 hok) hstatus
  · obtain rfl := Host.Outcome.next.inj (haccept.symm.trans hfail)
    obtain rfl := Port.busy.inj hport
    exact ⟨rfl, by rw [rspStatus_pack]; exact packResponse_status st⟩

/-! ## The order of the checks (R1003) -/

theorem acceptWord_of_error {w : Word64} {e : Illegal} (h : decode w = .error e) (s : State) :
    acceptWord w s = fail .illegal s := by
  rw [acceptWord, h]

theorem acceptWord_of_ok {w : Word64} {i : Instr} (h : decode w = .ok i) (s : State) :
    acceptWord w s = exec i s := by
  rw [acceptWord, h]

/-- A word that fails reports the status it fails with. -/
theorem rspStatus_of_fail {w r : Word64} {s t : State} (h : transact w s = some (t, r)) {st : Status}
    (hfail : acceptWord w s = fail st s) : rspStatus r = statusCode st := by
  rw [transact_of_accept hfail] at h
  obtain ⟨-, rfl⟩ := Prod.mk.inj (Option.some.inj h)
  exact rspStatus_pack _

/-- Settles O26: each clause is a way for a command to fail, with the status of its first failing
check. -/
theorem firstFailingCheckIsReported : Obligations.FirstFailingCheckIsReported := by
  intro w s t r h
  have reports {i : Instr} {st : Status} (hi : decode w = .ok i) (hfail : exec i s = fail st s) :
      rspStatus r = statusCode st := rspStatus_of_fail h ((acceptWord_of_ok hi s).trans hfail)
  refine ⟨fun e he => rspStatus_of_fail h (acceptWord_of_error he s), fun hs => ?idle,
    fun hs => ?running, fun idx hi hidx => reports hi (exec_cfgRd_unmapped hidx s)⟩
  case idle =>
    refine ⟨fun n f hi => reports hi (exec_proc_idle hs n f),
      fun hi => reports hi (exec_procNoin_idle hs), fun hi => reports hi (exec_stop_idle hs),
      fun sel idx hi => reports hi (exec_rdState_idle hs sel idx), fun idx v hi =>
        ⟨fun hidx => reports hi (exec_cfgWr_unmapped hs hidx v),
          fun hidx => reports hi (exec_cfgWr_readOnly hs hidx v), ?value⟩⟩
    rintro reg rfl hwritable hillegal
    exact reports hi (exec_cfgWr_illegal hs hwritable (Bool.eq_false_iff.1 hillegal))
  case running =>
    exact ⟨fun idx v hi => reports hi (exec_cfgWr_running hs idx v),
      fun hi => reports hi (exec_start_running hs),
      fun sel idx hi hnone => reports hi (exec_rdState_unmapped hs (stateElement_unmapped s hnone))⟩

end Sys2Proof.Machine
